-- ==== Sys2Proof/Word.lean ====
section
/-! DEFINITION. The three widths of the block (00_scope.md R5): a slot, a special register or pair, a request word. -/

namespace Sys2Proof

/-- The contents of one slot: `SLOT_WIDTH` is 8 (R5, R20). -/
abbrev Byte := BitVec 8

/-- The contents of SP, PC or a pair: `PAIR_WIDTH`, `SP_WIDTH` and `PC_WIDTH` are 16 (R5, R25, R33, R34). -/
abbrev Half := BitVec 16

/-- A request word: `REQUEST_WIDTH` is 32 (R5, R73). -/
abbrev Word := BitVec 32

end Sys2Proof
end

