-- ==== Sys2Proof/Syntax.lean ====
section
/-! DEFINITION. The names of the block's storage, the fault codes, and the operations: one constructor of `Instr`
per row of spec/opcode_table.json. -/

namespace Sys2Proof

/-- The eight slots in the fixed order of R20. -/
inductive Slot where
  | A | F | B | C | D | E | H | L
  deriving DecidableEq, Repr

/-- The four register pairs of R25. -/
inductive Pair where
  | AF | BC | DE | HL
  deriving DecidableEq, Repr

/-- The four flags of F, by the source's constant names (R27, R72). -/
inductive FlagBit where
  | zero | subtract | hCarry | carry
  deriving DecidableEq, Repr

/-- The fault codes of 60_exceptions.md R151. -/
inductive FaultCode where
  /-- `FAULT_ILLEGAL_OP`, code 1. -/
  | illegalOp
  /-- `FAULT_RESERVED_FIELD`, code 2. -/
  | reservedField
  /-- `FAULT_SLOT_RANGE`, code 3. -/
  | slotRange
  /-- `FAULT_PAIR_START`, code 4. -/
  | pairStart
  /-- `FAULT_FLAG_BIT`, code 5. -/
  | flagBit
  deriving DecidableEq, Repr

/-- The 14 operations of R74. Operands are unbounded integers, the widest operand form of R76: a request word
gives the values 0 to 7, 0 to 0xFF or 0 to 0xFFFF, and an engine that calls with integers may give any. -/
inductive Instr where
  | readRegister (i : Int)
  | writeRegister (i v : Int)
  | readPair (p : Int)
  | writePair (p v : Int)
  | readFlags
  | writeFlags (v : Int)
  | setFlag (b : Int)
  | resetFlag
  | readSp
  | writeSp (v : Int)
  | readPc
  | writePc (v : Int)
  | clearFlag (b : Int)
  | getFlag (b : Int)
  deriving DecidableEq, Repr

/-- The two ways the engine may put one request: as a request word (R73), or as an operation with integer operands
(30_encoding.md's preamble and R76). -/
inductive Request where
  | word (w : Word)
  | call (i : Instr)
  deriving DecidableEq, Repr

/-- One thing that may arrive at the block's only request port: one request, or two requests that overlap in time,
whether of one requester or of two (R62). -/
inductive Offer where
  | single (r : Request)
  | overlap (r r' : Request)
  deriving DecidableEq, Repr

end Sys2Proof
end

