-- ==== Sys2Proof/WellFormed.lean ====
section
/-! DEFINITION. An instruction is well formed when a request word can spell it: every operand fits its field
(30_encoding.md R73, R76). An odd pair select and a flag bit 0 to 3 fit their fields, so they are well formed;
that they fault is the operation's own check. -/

namespace Sys2Proof

/-- The integer fits an unsigned field of `n` bits. -/
def fitsField (n : Nat) (v : Int) : Bool := decide (0 ≤ v ∧ v < ((2 ^ n : Nat) : Int))

/-- Every operand fits its field: IDX and BIT are 3 bits wide, DATA[7:0] is 8 and DATA[15:0] is 16. -/
def Instr.wf : Instr → Bool
  | .readRegister i => fitsField 3 i
  | .writeRegister i v => fitsField 3 i && fitsField 8 v
  | .readPair p => fitsField 3 p
  | .writePair p v => fitsField 3 p && fitsField 16 v
  | .readFlags => true
  | .writeFlags v => fitsField 8 v
  | .setFlag b => fitsField 3 b
  | .resetFlag => true
  | .readSp => true
  | .writeSp v => fitsField 16 v
  | .readPc => true
  | .writePc v => fitsField 16 v
  | .clearFlag b => fitsField 3 b
  | .getFlag b => fitsField 3 b

end Sys2Proof
end

