-- ==== Sys2Proof/Decode.lean ====
section
/-! DEFINITION. The request word (30_encoding.md R73 to R80): its fields, the decoder of R78, and an encoder written
from the same tables. The decoder is total: every word gives one operation or one fault code. -/

namespace Sys2Proof

/-- OP, bits 31 to 28 (R73). -/
def opField (w : Word) : BitVec 4 := w.extractLsb' 28 4

/-- IDX, bits 27 to 25 (R73). -/
def idxField (w : Word) : BitVec 3 := w.extractLsb' 25 3

/-- BIT, bits 24 to 22 (R73). -/
def bitField (w : Word) : BitVec 3 := w.extractLsb' 22 3

/-- RSV, bits 21 to 16 (R73). -/
def rsvField (w : Word) : BitVec 6 := w.extractLsb' 16 6

/-- DATA, bits 15 to 0 (R73). -/
def dataField (w : Word) : BitVec 16 := w.extractLsb' 0 16

/-- IDX as an unsigned number 0 to 7 (R76). -/
def idxOperand (w : Word) : Int := (idxField w).toNat

/-- BIT as an unsigned number 0 to 7 (R76). -/
def bitOperand (w : Word) : Int := (bitField w).toNat

/-- DATA[7:0] as an unsigned number (R76). -/
def byteOperand (w : Word) : Int := ((dataField w).extractLsb' 0 8).toNat

/-- DATA[15:0] as an unsigned number (R76). -/
def halfOperand (w : Word) : Int := (dataField w).toNat

/-- The operation of R74 that OP selects, with its operands (R76). None for a reserved OP: 0xE and 0xF, and 0xC and
0xD when `FLAG_EXT` is false. -/
def operation (flagExt : Bool) (w : Word) : Option Instr :=
  match (opField w).toNat with
  | 0x0 => some (.readRegister (idxOperand w))
  | 0x1 => some (.writeRegister (idxOperand w) (byteOperand w))
  | 0x2 => some (.readPair (idxOperand w))
  | 0x3 => some (.writePair (idxOperand w) (halfOperand w))
  | 0x4 => some .readFlags
  | 0x5 => some (.writeFlags (byteOperand w))
  | 0x6 => some (.setFlag (bitOperand w))
  | 0x7 => some .resetFlag
  | 0x8 => some .readSp
  | 0x9 => some (.writeSp (halfOperand w))
  | 0xA => some .readPc
  | 0xB => some (.writePc (halfOperand w))
  | 0xC => if flagExt then some (.clearFlag (bitOperand w)) else none
  | 0xD => if flagExt then some (.getFlag (bitOperand w)) else none
  | _ => none

/-- A field the operation does not use is not 0: the four middle checks of R78, in its order, and DATA[15:8] of an
8-bit write. -/
def unusedFieldSet (w : Word) : Bool :=
  let op := (opField w).toNat
  rsvField w != 0
    || (idxField w != 0 && !(op == 0x0 || op == 0x1 || op == 0x2 || op == 0x3))
    || (bitField w != 0 && !(op == 0x6 || op == 0xC || op == 0xD))
    || (dataField w != 0 && !(op == 0x1 || op == 0x3 || op == 0x5 || op == 0x9 || op == 0xB))
    || ((dataField w).extractLsb' 8 8 != 0 && (op == 0x1 || op == 0x5))

/-- The decoder of R78: the OP check, then the unused fields, then the operation with its operands. -/
def decode (flagExt : Bool) (w : Word) : Except FaultCode Instr :=
  match operation flagExt w with
  | none => .error .illegalOp
  | some i => if unusedFieldSet w then .error .reservedField else .ok i

/-- The request word with the given fields and RSV = 0 (R73). -/
def requestOf (op : BitVec 4) (idx bit : BitVec 3) (data : Half) : Word :=
  op ++ idx ++ bit ++ 0#6 ++ data

/-- The request word of an operation (R74, and the "Encoding" line of each operation's rule). It spells the
instruction only where `Instr.wf` holds; an operand too wide for its field is cut to the field. -/
def encode : Instr → Word
  | .readRegister i => requestOf 0x0 (BitVec.ofInt 3 i) 0 0
  | .writeRegister i v => requestOf 0x1 (BitVec.ofInt 3 i) 0 (0#8 ++ BitVec.ofInt 8 v)
  | .readPair p => requestOf 0x2 (BitVec.ofInt 3 p) 0 0
  | .writePair p v => requestOf 0x3 (BitVec.ofInt 3 p) 0 (BitVec.ofInt 16 v)
  | .readFlags => requestOf 0x4 0 0 0
  | .writeFlags v => requestOf 0x5 0 0 (0#8 ++ BitVec.ofInt 8 v)
  | .setFlag b => requestOf 0x6 0 (BitVec.ofInt 3 b) 0
  | .resetFlag => requestOf 0x7 0 0 0
  | .readSp => requestOf 0x8 0 0 0
  | .writeSp v => requestOf 0x9 0 0 (BitVec.ofInt 16 v)
  | .readPc => requestOf 0xA 0 0 0
  | .writePc v => requestOf 0xB 0 0 (BitVec.ofInt 16 v)
  | .clearFlag b => requestOf 0xC 0 (BitVec.ofInt 3 b) 0
  | .getFlag b => requestOf 0xD 0 (BitVec.ofInt 3 b) 0

/-- The operation exists only when `FLAG_EXT` is true (R74: OP 0xC and 0xD). -/
def Instr.needsFlagExt : Instr → Bool
  | .clearFlag _ => true
  | .getFlag _ => true
  | .readRegister _ | .writeRegister _ _ | .readPair _ | .writePair _ _ | .readFlags | .writeFlags _
  | .setFlag _ | .resetFlag | .readSp | .writeSp _ | .readPc | .writePc _ => false

/-- The request word a fault records (R151). An integer-operand request that no word spells has none. Log 8. -/
def requestWord : Request → Option Word
  | .word w => some w
  | .call i => if i.wf then some (encode i) else none

/-- The table's number for a request, as a word: the `nbits` low bits of `w`, every bit above them 0. -/
def tableWord (nbits w : Nat) : Word := BitVec.ofNat 32 (w % 2 ^ nbits)

/-- The instruction the decoder reads from a row's word. The rows of clear_flag and get_flag exist only under
`FLAG_EXT` (R74), so the table is read with `FLAG_EXT` true. Log 2. -/
def decodeTableWord (nbits w : Nat) : Option Instr :=
  match decode true (tableWord nbits w) with
  | .ok i => some i
  | .error _ => none

end Sys2Proof
end

