-- ==== Sys2Proof/Config.lean ====
section
/-! DEFINITION. The parameters of 00_scope.md R5 that are not widths (`INIT`, `FLAG_EXT`), and the one free value.
The widths and counts of R5 are in the types: `Byte`, `Half`, `Word`, and the constructors of `Slot`, `Pair`, `FlagBit`. -/

namespace Sys2Proof

/-- The eight slots, each a byte, "one addressable 8-bit storage cell" (R20). -/
structure Slots where
  a : Byte
  f : Byte
  b : Byte
  c : Byte
  d : Byte
  e : Byte
  h : Byte
  l : Byte
  deriving DecidableEq, Repr, Inhabited

/-- Ten values: the eight slots, SP and PC. This is the shape of `INIT` (R5, R39) and of what the block stores. -/
structure Contents where
  slots : Slots
  sp : Half
  pc : Half
  deriving DecidableEq, Repr, Inhabited

namespace Config

/-- `INIT` at `State.reset`. DESIGN CHOICE (log 1): the spec leaves `INIT` a parameter, and all zeros is the value
this model names. `State.create` takes any other. Unsafe: a claim about `State.reset` alone could lean on it. -/
def initAtReset : Contents := ⟨⟨0, 0, 0, 0, 0, 0, 0, 0⟩, 0, 0⟩

/-- `FLAG_EXT` at `State.reset`: the default of R5 is false. -/
def flagExtDefault : Bool := false

/-- The contents of the slots, SP and PC after a fault are "any value" (R152(c), 93_implementation_defined.md U3).
A free value: it has no body, so no proof can see one. It may depend on how many free values were drawn, on the
contents before (a partial write is possible), on the code and on the request. Log 6. -/
opaque contentsAfterFault (draw : Nat) (before : Contents) (code : FaultCode) (cause : Request) : Contents

end Config

end Sys2Proof
end

