-- ==== Sys2Proof/Machine/State.lean ====
section
/-! DEFINITION. The state of the block (10_state.md), the model's few fields beside it, why a step can stop, and
creation (70_reset_and_hazards.md R170). -/

namespace Sys2Proof.Machine

/-- The response to one request (R77, and R152 for a faulting one). -/
inductive Response where
  /-- `data(v)`: a read returns a 16-bit value. -/
  | data (v : Half)
  /-- `done`: a write returns no data. -/
  | done
  /-- `fault(code)`: the request faulted. -/
  | fault (code : FaultCode)
  deriving DecidableEq, Repr

/-- What the fault state records: the code, and the request word that raised it (R151). No word is recorded where the
request had integer operands that no word spells (log 8). -/
structure FaultRecord where
  code : FaultCode
  word : Option Word
  deriving DecidableEq, Repr

/-- The state. `slots`, `sp`, `pc` and `fault` are the state of 10_state.md; `flagExt` is the parameter of R5.
`queue`, `response` and `freeDraws` are the model's own (logs 3, 4, 6): the block holds nothing between requests (R38). -/
structure State where
  /-- x[A] to x[L] (R20). -/
  slots : Slots
  /-- SP (R33). -/
  sp : Half
  /-- PC (R34). -/
  pc : Half
  /-- `none`, or `Fault(code)` (R37). -/
  fault : Option FaultRecord
  /-- `FLAG_EXT`, fixed at creation (R5). -/
  flagExt : Bool
  /-- What the engine offers at the request port, in issue order (R59). -/
  queue : List Offer
  /-- The response to the latest request, none before the first (R77). -/
  response : Option Response
  /-- How many free values have been drawn. -/
  freeDraws : Nat
  deriving DecidableEq, Repr

/-- Why a step stops with a fault. -/
inductive Fault where
  /-- Raised by `step` in a faulted block: "it accepts no further request: no step is enabled" (R152(a)).
  A stuck state. Safe: nothing can be concluded of a run after its fault. -/
  | blockFaulted (code : FaultCode)
  deriving DecidableEq, Repr

/-- Why a step has no meaning. -/
inductive Refusal where
  /-- Answered by an arm of `exec` for an operation without a meaning. No arm of this model does. Safe. -/
  | notModelled (mnemonic : String)
  /-- Raised by `step` when two requests overlap in time: they "are refused: the model gives them no meaning"
  (R62, 93_implementation_defined.md U7). Safe: it stops. -/
  | overlappingRequests
  deriving DecidableEq, Repr

/-- What a request answers. -/
abbrev Result := Host.Outcome State Fault Refusal

/-- Creation of the block with `INIT` and `FLAG_EXT` (R39, R170): the ten values are `INIT`'s and fault is none.
It is also the only way out of a faulted block (R152(d), R171). -/
def State.create (init : Contents) (flagExt : Bool) : State where
  slots := init.slots
  sp := init.sp
  pc := init.pc
  fault := none
  flagExt := flagExt
  queue := []
  response := none
  freeDraws := 0

/-- The block after creation with the `INIT` this model names (log 1) and the default `FLAG_EXT` (R5, log 2). -/
def State.reset : State := State.create Config.initAtReset Config.flagExtDefault

end Sys2Proof.Machine
end

