-- ==== Sys2Proof/Machine/Operands.lean ====
section
/-! DEFINITION. The operand forms of 30_encoding.md: slot index (R70), pair select (R71), values (R76), and the byte
order of a pair (R52). -/

namespace Sys2Proof.Machine

/-- The slot index of R70. -/
def slotIndex : Slot → Int
  | .A => 0
  | .F => 1
  | .B => 2
  | .C => 3
  | .D => 4
  | .E => 5
  | .H => 6
  | .L => 7

/-- The slot an index names; none outside 0 to 7 (R70, R76). -/
def slotOf (i : Int) : Option Slot :=
  match i with
  | 0 => some .A
  | 1 => some .F
  | 2 => some .B
  | 3 => some .C
  | 4 => some .D
  | 5 => some .E
  | 6 => some .H
  | 7 => some .L
  | _ => none

/-- The pair start of R25 and R71: the index of the pair's high slot. -/
def pairStart : Pair → Int
  | .AF => 0
  | .BC => 2
  | .DE => 4
  | .HL => 6

/-- The slot of a pair's high byte (R25). -/
def pairHigh : Pair → Slot
  | .AF => .A
  | .BC => .B
  | .DE => .D
  | .HL => .H

/-- The slot of a pair's low byte (R25). -/
def pairLow : Pair → Slot
  | .AF => .F
  | .BC => .C
  | .DE => .E
  | .HL => .L

/-- The pair a select names, or the fault it raises: out of 0 to 7 first, then not a pair start
(R76, R102, R103, R153). -/
def pairOf (p : Int) : Except FaultCode Pair :=
  match slotOf p with
  | none => .error .slotRange
  | some .A => .ok .AF
  | some .B => .ok .BC
  | some .D => .ok .DE
  | some .H => .ok .HL
  | some .F => .error .pairStart
  | some .C => .error .pairStart
  | some .E => .error .pairStart
  | some .L => .error .pairStart

/-- An 8-bit write value: the integer modulo 2^8 (R76). -/
def byteOf (v : Int) : Byte := BitVec.ofInt 8 v

/-- A 16-bit write value: the integer modulo 2^16 (R76). -/
def halfOf (v : Int) : Half := BitVec.ofInt 16 v

/-- `zext_16` (R7, R77). -/
def zext16 (b : Byte) : Half := b.setWidth 16

/-- The big-endian composition of a pair, `high ++ low` (R52). -/
def compose (high low : Byte) : Half := high ++ low

/-- `high = value >> 8` (R52). -/
def highByte (v : Half) : Byte := v.extractLsb' 8 8

/-- `low = value & 0xFF` (R52). -/
def lowByte (v : Half) : Byte := v.extractLsb' 0 8

end Sys2Proof.Machine
end

