-- ==== Sys2Proof/Machine/Flags.lean ====
section
/-! DEFINITION. The flag bits of F (10_state.md R27, 30_encoding.md R72, 41_flags.md R120). The block computes no flag
(R127); it sets, clears and reads single bits. -/

namespace Sys2Proof.Machine

/-- The bit position of a flag in F (R27, R72). -/
def flagPosition : FlagBit → Nat
  | .zero => 7
  | .subtract => 6
  | .hCarry => 5
  | .carry => 4

/-- The flag a bit position names; none outside 4 to 7 (R72, R123). -/
def flagOf (b : Int) : Option FlagBit :=
  match b with
  | 4 => some .carry
  | 5 => some .hCarry
  | 6 => some .subtract
  | 7 => some .zero
  | _ => none

/-- `mask(b) = 0x01 << b` (R120). -/
def flagMask (f : FlagBit) : Byte := 0x01#8 <<< flagPosition f

/-- F with one flag set: an OR with the mask (R123). -/
def setFlagIn (v : Byte) (f : FlagBit) : Byte := v ||| flagMask f

/-- F with one flag cleared: an AND with the inverted mask (R125). -/
def clearFlagIn (v : Byte) (f : FlagBit) : Byte := v &&& ~~~flagMask f

/-- One flag of F as a byte, 0 or 1: `(x[F] >> b) & 0x01` (R126). -/
def flagValue (v : Byte) (f : FlagBit) : Byte := (v >>> flagPosition f) &&& 0x01#8

end Sys2Proof.Machine
end

