-- ==== Sys2Proof/Machine/Ops.lean ====
section
/-! DEFINITION. The shared operations: reading and writing slots and pairs, answering a request, and the one operation
that every fault goes through. There is no memory (R50) and no return from a fault (R155). -/

namespace Sys2Proof.Machine

/-- `x[r]` (R7). -/
def readSlot (s : State) (r : Slot) : Byte :=
  match r with
  | .A => s.slots.a
  | .F => s.slots.f
  | .B => s.slots.b
  | .C => s.slots.c
  | .D => s.slots.d
  | .E => s.slots.e
  | .H => s.slots.h
  | .L => s.slots.l

/-- The slots with one of them replaced. No bit of any slot is hardwired or masked (R21). -/
def setSlot (x : Slots) (r : Slot) (v : Byte) : Slots :=
  match r with
  | .A => { x with a := v }
  | .F => { x with f := v }
  | .B => { x with b := v }
  | .C => { x with c := v }
  | .D => { x with d := v }
  | .E => { x with e := v }
  | .H => { x with h := v }
  | .L => { x with l := v }

/-- `x[r] <- v` (R7). -/
def writeSlot (s : State) (r : Slot) (v : Byte) : State := { s with slots := setSlot s.slots r v }

/-- `x[p] ++ x[p+1]`: a pair is a view of its two slots (R25, R52). -/
def readPair (s : State) (p : Pair) : Half := compose (readSlot s (pairHigh p)) (readSlot s (pairLow p))

/-- `x[p] <- v[15:8]; x[p+1] <- v[7:0]`, both in one step (R57, R103). -/
def writePair (s : State) (p : Pair) (v : Half) : State :=
  writeSlot (writeSlot s (pairHigh p) (highByte v)) (pairLow p) (lowByte v)

/-- `sp <- v` (R7). -/
def writeSp (s : State) (v : Half) : State := { s with sp := v }

/-- `pc <- v` (R7). -/
def writePc (s : State) (v : Half) : State := { s with pc := v }

/-- The response of a request that did not fault is given back (R77). -/
def respond (r : Response) (s : State) : State := { s with response := some r }

/-- The ten values a block stores. -/
def contents (s : State) : Contents := ⟨s.slots, s.sp, s.pc⟩

/-- The state after a fault (R152): the response is `fault(code)`, the fault state records the code and the request
word (R151), and the slots, SP and PC hold any value. -/
def faultState (code : FaultCode) (cause : Request) (s : State) : State :=
  let after := Config.contentsAfterFault s.freeDraws (contents s) code cause
  { s with
    slots := after.slots
    sp := after.sp
    pc := after.pc
    fault := some ⟨code, requestWord cause⟩
    response := some (.fault code)
    freeDraws := s.freeDraws + 1 }

/-- The number of a fault code (R151). -/
def faultNumber : FaultCode → Nat
  | .illegalOp => 1
  | .reservedField => 2
  | .slotRange => 3
  | .pairStart => 4
  | .flagBit => 5

/-- The fault state as a number: "Code 0 means no fault" (R151). -/
def faultStatus (s : State) : Nat :=
  match s.fault with
  | none => 0
  | some r => faultNumber r.code

/-- `raise Fault(code)` (R7, R152). Nothing is saved and no control is transferred (R155). -/
def raiseFault (code : FaultCode) (cause : Request) (s : State) : Result := .next (faultState code cause s)

/-- `return data(v)` (R77). -/
def answerData (v : Half) (s : State) : Result := .next (respond (.data v) s)

/-- `return done` (R77). -/
def answerDone (s : State) : Result := .next (respond .done s)

end Sys2Proof.Machine
end

