-- ==== Sys2Proof/Machine/FlagOperations.lean ====
section
/-! DEFINITION. The operations of 41_flags.md. -/

namespace Sys2Proof.Machine

/-- read_flags (R121). -/
def execReadFlags (s : State) : Result := answerData (zext16 (readSlot s .F)) s

/-- write_flags (R122). -/
def execWriteFlags (v : Int) (s : State) : Result := answerDone (writeSlot s .F (byteOf v))

/-- set_flag (R123). -/
def execSetFlag (b : Int) (s : State) : Result :=
  match flagOf b with
  | none => raiseFault .flagBit (.call (.setFlag b)) s
  | some f => answerDone (writeSlot s .F (setFlagIn (readSlot s .F) f))

/-- reset_flag (R124): all eight bits of F, and nothing else. -/
def execResetFlag (s : State) : Result := answerDone (writeSlot s .F 0x00#8)

/-- clear_flag (R125), an operation only when `FLAG_EXT` is true. For a request word the decoder has made that check
already (90_conflicts.md C8); for integer operands it is made here. -/
def execClearFlag (b : Int) (s : State) : Result :=
  if s.flagExt then
    match flagOf b with
    | none => raiseFault .flagBit (.call (.clearFlag b)) s
    | some f => answerDone (writeSlot s .F (clearFlagIn (readSlot s .F) f))
  else raiseFault .illegalOp (.call (.clearFlag b)) s

/-- get_flag (R126), an operation only when `FLAG_EXT` is true, as for clear_flag. -/
def execGetFlag (b : Int) (s : State) : Result :=
  if s.flagExt then
    match flagOf b with
    | none => raiseFault .flagBit (.call (.getFlag b)) s
    | some f => answerData (zext16 (flagValue (readSlot s .F) f)) s
  else raiseFault .illegalOp (.call (.getFlag b)) s

end Sys2Proof.Machine
end

