-- ==== Sys2Proof/Machine/RegisterAccess.lean ====
section
/-! DEFINITION. The operations of 40_register_access.md. -/

namespace Sys2Proof.Machine

/-- read_register (R100). -/
def execReadRegister (i : Int) (s : State) : Result :=
  match slotOf i with
  | none => raiseFault .slotRange (.call (.readRegister i)) s
  | some r => answerData (zext16 (readSlot s r)) s

/-- write_register (R101). -/
def execWriteRegister (i v : Int) (s : State) : Result :=
  match slotOf i with
  | none => raiseFault .slotRange (.call (.writeRegister i v)) s
  | some r => answerDone (writeSlot s r (byteOf v))

/-- read_pair (R102). -/
def execReadPair (p : Int) (s : State) : Result :=
  match pairOf p with
  | .error code => raiseFault code (.call (.readPair p)) s
  | .ok pair => answerData (readPair s pair) s

/-- write_pair (R103). -/
def execWritePair (p v : Int) (s : State) : Result :=
  match pairOf p with
  | .error code => raiseFault code (.call (.writePair p v)) s
  | .ok pair => answerDone (writePair s pair (halfOf v))

end Sys2Proof.Machine
end

