-- ==== Sys2Proof/Machine/SpecialRegisters.lean ====
section
/-! DEFINITION. The operations of 42_special_registers.md. The block does no arithmetic on SP or PC (R35, R144). -/

namespace Sys2Proof.Machine

/-- read_sp (R140). -/
def execReadSp (s : State) : Result := answerData s.sp s

/-- write_sp (R141). -/
def execWriteSp (v : Int) (s : State) : Result := answerDone (writeSp s (halfOf v))

/-- read_pc (R142): reading PC does not advance it. -/
def execReadPc (s : State) : Result := answerData s.pc s

/-- write_pc (R143). -/
def execWritePc (v : Int) (s : State) : Result := answerDone (writePc s (halfOf v))

end Sys2Proof.Machine
end

