-- ==== Sys2Proof/Machine/Dispatch.lean ====
section
/-! DEFINITION. One arm per operation of 30_encoding.md R74. `exec` performs an operation; whether a request is
accepted at all (R152(a)) is decided before it, in `fetch`. -/

namespace Sys2Proof.Machine

def exec (i : Instr) (s : State) : Host.Outcome State Fault Refusal :=
  match i with
  | .readRegister k => Sys2Proof.Machine.execReadRegister k s
  | .writeRegister k v => Sys2Proof.Machine.execWriteRegister k v s
  | .readPair p => Sys2Proof.Machine.execReadPair p s
  | .writePair p v => Sys2Proof.Machine.execWritePair p v s
  | .readFlags => Sys2Proof.Machine.execReadFlags s
  | .writeFlags v => Sys2Proof.Machine.execWriteFlags v s
  | .setFlag b => Sys2Proof.Machine.execSetFlag b s
  | .resetFlag => Sys2Proof.Machine.execResetFlag s
  | .readSp => Sys2Proof.Machine.execReadSp s
  | .writeSp v => Sys2Proof.Machine.execWriteSp v s
  | .readPc => Sys2Proof.Machine.execReadPc s
  | .writePc v => Sys2Proof.Machine.execWritePc v s
  | .clearFlag b => Sys2Proof.Machine.execClearFlag b s
  | .getFlag b => Sys2Proof.Machine.execGetFlag b s

end Sys2Proof.Machine
end

