-- ==== Sys2Proof/Machine/Fetch.lean ====
section
/-! DEFINITION. What the block does with its request port before an operation runs: it takes the next request, in the
order of issue (R59), and decodes a request word (R78). -/

namespace Sys2Proof.Machine

/-- What the request port gives. -/
inductive Fetched where
  /-- The block takes no step. -/
  | stop (why : Fault)
  /-- What is at the port has no meaning. -/
  | refuse (why : Refusal)
  /-- Nothing is at the port. -/
  | idle
  /-- The request does not decode; the state has it taken from the port. -/
  | bad (code : FaultCode) (cause : Request) (s : State)
  /-- The request is this operation; the state has it taken from the port. -/
  | run (i : Instr) (s : State)
  deriving DecidableEq, Repr

/-- The operation of a request. A word is decoded (R78); a request with integer operands needs no decoding, and the
operation makes all its own checks (R76, R125, R126). -/
def requestOperation (flagExt : Bool) (r : Request) : Except FaultCode Instr :=
  match r with
  | .word w => decode flagExt w
  | .call i => .ok i

/-- Take one request. A faulted block accepts none (R152(a)); overlapping requests are refused (R62); with no request
the passive block does nothing (R2). -/
def fetch (s : State) : Fetched :=
  match s.fault with
  | some r => .stop (.blockFaulted r.code)
  | none =>
    match s.queue with
    | [] => .idle
    | .overlap _ _ :: _ => .refuse .overlappingRequests
    | .single r :: rest =>
      match requestOperation s.flagExt r with
      | .error code => .bad code r { s with queue := rest }
      | .ok i => .run i { s with queue := rest }

/-- Whether a word's operation exists only when `FLAG_EXT` is true (R74). -/
def wordNeedsFlagExt (w : Word) : Bool :=
  match decode true w with
  | .ok i => i.needsFlagExt
  | .error _ => false

/-- The state with one more request word at the head of the port. A word of clear_flag or get_flag can run only on a
block that has the extension, so for such a word the block is one that has it (log 2). -/
def offerWord (s : State) (w : Word) : State :=
  { s with queue := .single (.word w) :: s.queue, flagExt := s.flagExt || wordNeedsFlagExt w }

end Sys2Proof.Machine
end

