-- ==== Sys2Proof/Machine/Step.lean ====
section
/-! DEFINITION. One step is one request (R57, R176), and how the host places a request. -/

namespace Sys2Proof.Machine

/-- One request is taken and performed. -/
def step (s : State) : Host.Outcome State Fault Refusal :=
  match fetch s with
  | .stop why => .fault why
  | .refuse why => .refused why
  | .idle => .next s
  | .bad code cause s' => raiseFault code cause s'
  | .run i s' => exec i s'

/-- The engine offers the table's word as the next request. -/
def State.withFetchWord (s : State) (nbits w : Nat) : State := offerWord s (tableWord nbits w)

end Sys2Proof.Machine
end

