-- ==== Sys2Proof/Machine/Assembler.lean ====
section
/-! DEFINITION. The textual form of a request, 30_encoding.md R81: one line per operation, its text, the reader of a
line's text, and the request word a line assembles to. -/

namespace Sys2Proof.Machine

/-- A line of R81. Registers, pairs and flags are names, so an odd pair select can be written only as `.word`;
immediates are unsigned. -/
inductive AsmLine where
  | readRegister (r : Slot)
  | writeRegister (r : Slot) (imm8 : Nat)
  | readPair (pp : Pair)
  | writePair (pp : Pair) (imm16 : Nat)
  | readFlags
  | writeFlags (imm8 : Nat)
  | setFlag (f : FlagBit)
  | resetFlag
  | readSp
  | writeSp (imm16 : Nat)
  | readPc
  | writePc (imm16 : Nat)
  | clearFlag (f : FlagBit)
  | getFlag (f : FlagBit)
  | word (imm32 : Nat)
  deriving DecidableEq, Repr

/-- An immediate of at most `n` bits; an assembler refuses anything larger (R81; for the 32 bits of `.word`, log 12). -/
def immediate (n imm : Nat) (w : Word) : Option Word := if imm < 2 ^ n then some w else none

/-- The request word of a line (R81), none where the assembler refuses it. It refuses an immediate too large (R81).
DESIGN CHOICE (log 14): it also refuses clear_flag and get_flag without `FLAG_EXT`, beside which R81 says only "only when
FLAG_EXT". -/
def assemble (flagExt : Bool) (line : AsmLine) : Option Word :=
  match line with
  | .readRegister r => some (encode (.readRegister (slotIndex r)))
  | .writeRegister r imm8 => immediate 8 imm8 (encode (.writeRegister (slotIndex r) imm8))
  | .readPair pp => some (encode (.readPair (pairStart pp)))
  | .writePair pp imm16 => immediate 16 imm16 (encode (.writePair (pairStart pp) imm16))
  | .readFlags => some (encode .readFlags)
  | .writeFlags imm8 => immediate 8 imm8 (encode (.writeFlags imm8))
  | .setFlag f => some (encode (.setFlag (flagPosition f)))
  | .resetFlag => some (encode .resetFlag)
  | .readSp => some (encode .readSp)
  | .writeSp imm16 => immediate 16 imm16 (encode (.writeSp imm16))
  | .readPc => some (encode .readPc)
  | .writePc imm16 => immediate 16 imm16 (encode (.writePc imm16))
  | .clearFlag f => if flagExt then some (encode (.clearFlag (flagPosition f))) else none
  | .getFlag f => if flagExt then some (encode (.getFlag (flagPosition f))) else none
  | .word imm32 => immediate 32 imm32 (BitVec.ofNat 32 imm32)

/-- A slot's name (R20). -/
def slotName : Slot → String
  | .A => "A"
  | .F => "F"
  | .B => "B"
  | .C => "C"
  | .D => "D"
  | .E => "E"
  | .H => "H"
  | .L => "L"

/-- A pair's name (R25). -/
def pairName : Pair → String
  | .AF => "AF"
  | .BC => "BC"
  | .DE => "DE"
  | .HL => "HL"

/-- A flag's constant name (R72). -/
def flagName : FlagBit → String
  | .zero => "ZERO"
  | .subtract => "SUBTRACT"
  | .hCarry => "H_CARRY"
  | .carry => "CARRY"

/-- The text of a line, its immediates in decimal, one of the two forms R81 allows. -/
def lineText : AsmLine → String
  | .readRegister r => "read_register " ++ slotName r
  | .writeRegister r imm8 => "write_register " ++ slotName r ++ ", " ++ toString imm8
  | .readPair pp => "read_pair " ++ pairName pp
  | .writePair pp imm16 => "write_pair " ++ pairName pp ++ ", " ++ toString imm16
  | .readFlags => "read_flags"
  | .writeFlags imm8 => "write_flags " ++ toString imm8
  | .setFlag f => "set_flag " ++ flagName f
  | .resetFlag => "reset_flag"
  | .readSp => "read_sp"
  | .writeSp imm16 => "write_sp " ++ toString imm16
  | .readPc => "read_pc"
  | .writePc imm16 => "write_pc " ++ toString imm16
  | .clearFlag f => "clear_flag " ++ flagName f
  | .getFlag f => "get_flag " ++ flagName f
  | .word imm32 => ".word " ++ toString imm32

/-- The tokens of a line: words parted by spaces, and each comma by itself. `word` is the word being read. -/
def tokens (word : List Char) : List Char → List (List Char)
  | [] => if word.isEmpty then [] else [word]
  | c :: rest =>
    if c = ' ' then if word.isEmpty then tokens [] rest else word :: tokens [] rest
    else if c = ',' then if word.isEmpty then [','] :: tokens [] rest else word :: [','] :: tokens [] rest
    else tokens (word ++ [c]) rest

/-- The value of a digit in a base up to 16, in either case of letters. -/
def digitValue (base : Nat) (c : Char) : Option Nat :=
  let n := c.toNat
  let v :=
    if 48 ≤ n ∧ n ≤ 57 then n - 48
    else if 65 ≤ n ∧ n ≤ 70 then n - 55
    else if 97 ≤ n ∧ n ≤ 102 then n - 87
    else base
  if v < base then some v else none

/-- Digits in a base, most significant first, after the value `sofar`. -/
def digits (base sofar : Nat) : List Char → Option Nat
  | [] => some sofar
  | c :: rest =>
    match digitValue base c with
    | some v => digits base (sofar * base + v) rest
    | none => none

/-- An immediate: unsigned, hexadecimal `0x..` or decimal (R81). -/
def number : List Char → Option Nat
  | [] => none
  | '0' :: 'x' :: c :: rest => digits 16 0 (c :: rest)
  | c :: rest => digits 10 0 (c :: rest)

/-- The slot a name names. -/
def namedSlot (name : List Char) : Option Slot :=
  [Slot.A, .F, .B, .C, .D, .E, .H, .L].find? fun r => (slotName r).toList = name

/-- The pair a name names. -/
def namedPair (name : List Char) : Option Pair :=
  [Pair.AF, .BC, .DE, .HL].find? fun p => (pairName p).toList = name

/-- The flag a name names. -/
def namedFlag (name : List Char) : Option FlagBit :=
  [FlagBit.zero, .subtract, .hCarry, .carry].find? fun f => (flagName f).toList = name

/-- A line of no operand. -/
def lineOfNone (m : List Char) : Option AsmLine :=
  if m = "read_flags".toList then some .readFlags
  else if m = "reset_flag".toList then some .resetFlag
  else if m = "read_sp".toList then some .readSp
  else if m = "read_pc".toList then some .readPc
  else none

/-- A line of one operand. -/
def lineOfOne (m x : List Char) : Option AsmLine :=
  if m = "read_register".toList then (namedSlot x).map .readRegister
  else if m = "read_pair".toList then (namedPair x).map .readPair
  else if m = "write_flags".toList then (number x).map .writeFlags
  else if m = "set_flag".toList then (namedFlag x).map .setFlag
  else if m = "write_sp".toList then (number x).map .writeSp
  else if m = "write_pc".toList then (number x).map .writePc
  else if m = "clear_flag".toList then (namedFlag x).map .clearFlag
  else if m = "get_flag".toList then (namedFlag x).map .getFlag
  else if m = ".word".toList then (number x).map .word
  else none

/-- A line of two operands with a comma between them. -/
def lineOfTwo (m x y : List Char) : Option AsmLine :=
  if m = "write_register".toList then
    match namedSlot x, number y with
    | some r, some n => some (.writeRegister r n)
    | _, _ => none
  else if m = "write_pair".toList then
    match namedPair x, number y with
    | some pp, some n => some (.writePair pp n)
    | _, _ => none
  else none

/-- The line a text spells (R81); none where it spells none. There are no pseudo-instructions. -/
def readLine (text : String) : Option AsmLine :=
  match tokens [] text.toList with
  | [m] => lineOfNone m
  | [m, x] => lineOfOne m x
  | [m, x, [','], y] => lineOfTwo m x y
  | _ => none

/-- The request word of a text, none where the assembler refuses it. -/
def assembleText (flagExt : Bool) (text : String) : Option Word :=
  match readLine text with
  | some line => assemble flagExt line
  | none => none

end Sys2Proof.Machine
end

