-- ==== Sys2Proof/Safety.lean ====
section
/-! DEFINITION. What counts as safe, in the terms the statements use: the caller's contract (R175), which fault a
request raises (R151, R153, written over the numbers of a word and apart from the decoder), the most recent write to a
bit (R59), and short names for what an answer leaves unchanged. -/

namespace Sys2Proof.Machine

/-- No fault is recorded. "A claim about a run must assume that no fault was recorded" (R152(b)). -/
def State.Safe (s : State) : Prop := s.fault = none

/-- A safe run of `n` steps: it does not stop, and no fault is recorded at its end (R152(b)). -/
def SafeRun (n : Nat) (s t : State) : Prop := core.run n s = .next t ∧ t.Safe

/-- The fault of an operation called with integer operands, with the priority of R153; none when the call keeps the
caller's contract (R175). -/
def callFault (flagExt : Bool) : Instr → Option FaultCode
  | .readRegister i | .writeRegister i _ => if 0 ≤ i ∧ i ≤ 7 then none else some .slotRange
  | .readPair p | .writePair p _ =>
    if ¬(0 ≤ p ∧ p ≤ 7) then some .slotRange else if p % 2 = 0 then none else some .pairStart
  | .setFlag b => if 4 ≤ b ∧ b ≤ 7 then none else some .flagBit
  | .clearFlag b | .getFlag b =>
    if flagExt = false then some .illegalOp else if 4 ≤ b ∧ b ≤ 7 then none else some .flagBit
  | .readFlags | .writeFlags _ | .resetFlag | .readSp | .writeSp _ | .readPc | .writePc _ => none

/-- The fault of a request word, from the table of R151 with the priority of R153: the fields are the digits of the
word as a number (R73), not the decoder's fields. -/
def wordFault (flagExt : Bool) (w : Word) : Option FaultCode :=
  let op := w.toNat / 2 ^ 28
  let idx := w.toNat / 2 ^ 25 % 2 ^ 3
  let bit := w.toNat / 2 ^ 22 % 2 ^ 3
  let rsv := w.toNat / 2 ^ 16 % 2 ^ 6
  let data := w.toNat % 2 ^ 16
  if 14 ≤ op ∨ (12 ≤ op ∧ flagExt = false) then some .illegalOp
  else if rsv ≠ 0 ∨ (idx ≠ 0 ∧ 4 ≤ op) ∨ (bit ≠ 0 ∧ op ≠ 6 ∧ op < 12)
      ∨ (data ≠ 0 ∧ op ≠ 1 ∧ op ≠ 3 ∧ op ≠ 5 ∧ op ≠ 9 ∧ op ≠ 11) ∨ (256 ≤ data ∧ (op = 1 ∨ op = 5)) then
    some .reservedField
  else if (op = 2 ∨ op = 3) ∧ idx % 2 = 1 then some .pairStart
  else if (op = 6 ∨ 12 ≤ op) ∧ bit < 4 then some .flagBit
  else none

/-- The fault of a request in either form. -/
def requestFault (flagExt : Bool) : Request → Option FaultCode
  | .word w => wordFault flagExt w
  | .call i => callFault flagExt i

/-- What an answer that is no fault leaves as it was, beside the registers: the fault state, the parameter, the port
and the draws. -/
def BookkeepingKept (s t : State) : Prop :=
  t.fault = s.fault ∧ t.flagExt = s.flagExt ∧ t.queue = s.queue ∧ t.freeDraws = s.freeDraws

/-- The operation returns `data(v)` and changes no state (R58): nothing but the response differs. -/
def Returns (i : Instr) (s : State) (v : Half) : Prop := exec i s = .next { s with response := some (.data v) }

/-- The operation writes: it returns `done`, its new state is `t`, and everything but the registers is as before. -/
def Writes (i : Instr) (s t : State) : Prop :=
  exec i s = .next t ∧ t.response = some .done ∧ BookkeepingKept s t

/-- The operation faults with a code (R152): the response is `fault(code)` and the fault state records the code. Of the
registers nothing is said. That a faulting request answers a next state is the model's reading (log 5). -/
def Raises (i : Instr) (s : State) (code : FaultCode) : Prop :=
  ∃ t, exec i s = .next t ∧ t.response = some (.fault code) ∧ (∃ w, t.fault = some ⟨code, w⟩) ∧
    t.flagExt = s.flagExt ∧ t.queue = s.queue

/-- The word is the operation's encoding, both ways. -/
def Spells (flagExt : Bool) (w : Word) (i : Instr) : Prop := encode i = w ∧ decode flagExt w = .ok i

/-- A value is one of the four pair starts, A, B, D and H (R71). -/
def IsPairStart (p : Int) : Prop := p = 0 ∨ p = 2 ∨ p = 4 ∨ p = 6

/-- The value a request that keeps the contract writes to bit `k` of slot `q`, if it writes that bit (R101, R103, R122
to R125). -/
def bitWritten (q : Slot) (k : Nat) : Instr → Option Bool
  | .writeRegister i v => if i = slotIndex q then some ((BitVec.ofInt 8 v).getLsbD k) else none
  | .writePair p v =>
    if p = slotIndex q then some ((BitVec.ofInt 16 v).getLsbD (k + 8))
    else if p + 1 = slotIndex q then some ((BitVec.ofInt 16 v).getLsbD k)
    else none
  | .writeFlags v => if q = .F then some ((BitVec.ofInt 8 v).getLsbD k) else none
  | .setFlag b => if q = .F ∧ b = k then some true else none
  | .resetFlag => if q = .F then some false else none
  | .clearFlag b => if q = .F ∧ b = k then some false else none
  | .readRegister _ | .readPair _ | .readFlags | .readSp | .writeSp _ | .readPc | .writePc _ | .getFlag _ => none

/-- The value a request writes to SP, if it does (R141). -/
def spWritten : Instr → Option Half
  | .writeSp v => some (BitVec.ofInt 16 v)
  | .readRegister _ | .writeRegister _ _ | .readPair _ | .writePair _ _ | .readFlags | .writeFlags _ | .setFlag _
  | .resetFlag | .readSp | .readPc | .writePc _ | .clearFlag _ | .getFlag _ => none

/-- The value a request writes to PC, if it does (R143). -/
def pcWritten : Instr → Option Half
  | .writePc v => some (BitVec.ofInt 16 v)
  | .readRegister _ | .writeRegister _ _ | .readPair _ | .writePair _ _ | .readFlags | .writeFlags _ | .setFlag _
  | .resetFlag | .readSp | .writeSp _ | .readPc | .clearFlag _ | .getFlag _ => none

/-- The slot index of a name in a line (R70), written apart from `slotIndex`. -/
def slotNumber : Slot → Int
  | .A => 0
  | .F => 1
  | .B => 2
  | .C => 3
  | .D => 4
  | .E => 5
  | .H => 6
  | .L => 7

/-- The pair select of a name in a line (R71), written apart from `pairStart`. -/
def pairNumber : Pair → Int
  | .AF => 0
  | .BC => 2
  | .DE => 4
  | .HL => 6

/-- The bit position of a flag's name in a line (R72), written apart from `flagPosition`. -/
def flagNumber : FlagBit → Int
  | .zero => 7
  | .subtract => 6
  | .hCarry => 5
  | .carry => 4

/-- The operation R81 gives a line, with the line's own operands; none for `.word`, which gives a word. -/
def lineOperation : AsmLine → Option Instr
  | .readRegister r => some (.readRegister (slotNumber r))
  | .writeRegister r imm8 => some (.writeRegister (slotNumber r) imm8)
  | .readPair pp => some (.readPair (pairNumber pp))
  | .writePair pp imm16 => some (.writePair (pairNumber pp) imm16)
  | .readFlags => some .readFlags
  | .writeFlags imm8 => some (.writeFlags imm8)
  | .setFlag f => some (.setFlag (flagNumber f))
  | .resetFlag => some .resetFlag
  | .readSp => some .readSp
  | .writeSp imm16 => some (.writeSp imm16)
  | .readPc => some .readPc
  | .writePc imm16 => some (.writePc imm16)
  | .clearFlag f => some (.clearFlag (flagNumber f))
  | .getFlag f => some (.getFlag (flagNumber f))
  | .word _ => none

/-- The text assembles to a word that decodes to the operation. -/
def AssemblesTo (flagExt : Bool) (text : String) (i : Instr) : Prop :=
  ∃ w, assembleText flagExt text = some w ∧ decode flagExt w = .ok i

/-- A text is one of the two forms of an immediate, decimal or hexadecimal `0x..` (R81). -/
def IsImmediate (n : Nat) (text : String) : Prop :=
  text = toString n ∨ text = "0x" ++ String.ofList (Nat.toDigits 16 n)

/-- The value left by the most recent write of a sequence of requests, or the value before it (R59). -/
def lastWritten {α : Type} (written : Instr → Option α) : List Instr → α → α
  | [], before => before
  | i :: rest, before => lastWritten written rest ((written i).getD before)

/-- The fault state agrees with the response and with the recorded word: a recorded fault was the response, its word is
one that R151 and R153 give that code (for a request with integer operands, the word that spells it, log 8), and a
response `fault(code)` is recorded. -/
def State.FaultJustified (s : State) : Prop :=
  (∀ r, s.fault = some r →
    s.response = some (.fault r.code) ∧ ∀ w, r.word = some w → wordFault s.flagExt w = some r.code) ∧
  ∀ c, s.response = some (.fault c) → ∃ r, s.fault = some r ∧ r.code = c

end Sys2Proof.Machine
end

