-- ==== Sys2Proof/Certificates/Slice0/Obligations.lean ====
section
/-! DEFINITION. The statements for the provers. A docstring names the rule of spec/ a statement formalises. Every value
a request writes is given as an integer reduced modulo 2^8 or 2^16 (R76; for negative values log 7); a value that fits
its field is unchanged by that. Of the registers of a faulted block nothing is ever stated (R152(c)). -/

open Sys2Proof Sys2Proof.Machine

/-- R39: at creation every slot, SP and PC has its `INIT` value and fault is none. Said through the operations that
read them, for every `INIT` and either value of `FLAG_EXT`. -/
def Obligations.CreationHoldsInit : Prop :=
  ∀ (init : Contents) (flagExt : Bool),
    (State.create init flagExt).fault = none ∧ (State.create init flagExt).flagExt = flagExt ∧
    Returns (.readRegister 0) (State.create init flagExt) (init.slots.a.setWidth 16) ∧
    Returns (.readRegister 1) (State.create init flagExt) (init.slots.f.setWidth 16) ∧
    Returns (.readRegister 2) (State.create init flagExt) (init.slots.b.setWidth 16) ∧
    Returns (.readRegister 3) (State.create init flagExt) (init.slots.c.setWidth 16) ∧
    Returns (.readRegister 4) (State.create init flagExt) (init.slots.d.setWidth 16) ∧
    Returns (.readRegister 5) (State.create init flagExt) (init.slots.e.setWidth 16) ∧
    Returns (.readRegister 6) (State.create init flagExt) (init.slots.h.setWidth 16) ∧
    Returns (.readRegister 7) (State.create init flagExt) (init.slots.l.setWidth 16) ∧
    Returns .readSp (State.create init flagExt) init.sp ∧
    Returns .readPc (State.create init flagExt) init.pc

/-- R100: read_register returns the byte of one slot, zero-extended, and changes no state. Its word is
`0x00000000 | (i << 25)`. An index outside 0 to 7 faults with `FAULT_SLOT_RANGE` (R76). How a fault is answered: log 5. -/
def Obligations.ReadRegisterReturnsTheSlot : Prop :=
  ∀ (s : State) (i : Int),
    (0 ≤ i → i ≤ 7 →
      (∀ flagExt, Spells flagExt (0x00000000#32 ||| (BitVec.ofInt 32 i <<< 25)) (.readRegister i)) ∧
      ∀ q, slotIndex q = i → Returns (.readRegister i) s ((readSlot s q).setWidth 16)) ∧
    (i < 0 ∨ 7 < i → Raises (.readRegister i) s .slotRange)

/-- R101: write_register stores one byte in one slot and changes nothing else. Its word is
`0x10000000 | (i << 25) | v`. An index outside 0 to 7 faults with `FAULT_SLOT_RANGE` (R76), and a word of this operation
with DATA[15:8] not 0 faults with `FAULT_RESERVED_FIELD`. A value too wide is reduced modulo 2^8 (R76); that a negative
one is too is the model's choice (log 7). How a fault is answered: log 5. -/
def Obligations.WriteRegisterStoresOneByte : Prop :=
  (∀ (s : State) (i v : Int),
    (0 ≤ i → i ≤ 7 →
      (∀ flagExt, 0 ≤ v → v ≤ 0xFF →
        Spells flagExt (0x10000000#32 ||| (BitVec.ofInt 32 i <<< 25) ||| BitVec.ofInt 32 v) (.writeRegister i v)) ∧
      ∃ t, Writes (.writeRegister i v) s t ∧ t.sp = s.sp ∧ t.pc = s.pc ∧
        ∀ q, (slotIndex q = i → ((readSlot t q).toNat : Int) = v % 2 ^ 8) ∧
          (slotIndex q ≠ i → readSlot t q = readSlot s q)) ∧
    (i < 0 ∨ 7 < i → Raises (.writeRegister i v) s .slotRange)) ∧
  ∀ (flagExt : Bool) (w : Word), w.toNat / 2 ^ 28 = 1 → 2 ^ 8 ≤ w.toNat % 2 ^ 16 →
    decode flagExt w = .error .reservedField

/-- R102: read_pair returns `x[p] ++ x[p+1]` and changes no state. Its word is `0x20000000 | (p << 25)`. An odd select
faults with `FAULT_PAIR_START`, one outside 0 to 7 with `FAULT_SLOT_RANGE`. That a negative select does so too follows
R76 and not the operation's pseudocode, which is the model's choice (log 7). How a fault is answered: log 5. -/
def Obligations.ReadPairComposesItsSlots : Prop :=
  ∀ (s : State) (p : Int),
    (IsPairStart p →
      (∀ flagExt, Spells flagExt (0x20000000#32 ||| (BitVec.ofInt 32 p <<< 25)) (.readPair p)) ∧
      ∀ high low, slotIndex high = p → slotIndex low = p + 1 →
        Returns (.readPair p) s (((readSlot s high).setWidth 16 <<< 8) ||| (readSlot s low).setWidth 16)) ∧
    (p = 1 ∨ p = 3 ∨ p = 5 ∨ p = 7 → Raises (.readPair p) s .pairStart) ∧
    (p < 0 ∨ 7 < p → Raises (.readPair p) s .slotRange)

/-- R103: write_pair stores v[15:8] in x[p] and v[7:0] in x[p+1], in one step, and changes nothing else. Its word is
`0x30000000 | (p << 25) | v`. A value too wide is reduced modulo 2^16 (R76). An odd select faults with
`FAULT_PAIR_START`, one outside 0 to 7 with `FAULT_SLOT_RANGE`. Two clauses are the model's choice (log 7): a negative
value is reduced too, and a negative select follows R76 and not the operation's pseudocode. How a fault is answered:
log 5. -/
def Obligations.WritePairSplitsItsValue : Prop :=
  ∀ (s : State) (p v : Int),
    (IsPairStart p →
      (∀ flagExt, 0 ≤ v → v ≤ 0xFFFF →
        Spells flagExt (0x30000000#32 ||| (BitVec.ofInt 32 p <<< 25) ||| BitVec.ofInt 32 v) (.writePair p v)) ∧
      ∃ t, Writes (.writePair p v) s t ∧ t.sp = s.sp ∧ t.pc = s.pc ∧
        ∀ q, (slotIndex q = p → ((readSlot t q).toNat : Int) = v / 2 ^ 8 % 2 ^ 8) ∧
          (slotIndex q = p + 1 → ((readSlot t q).toNat : Int) = v % 2 ^ 8) ∧
          (slotIndex q ≠ p → slotIndex q ≠ p + 1 → readSlot t q = readSlot s q)) ∧
    (p = 1 ∨ p = 3 ∨ p = 5 ∨ p = 7 → Raises (.writePair p v) s .pairStart) ∧
    (p < 0 ∨ 7 < p → Raises (.writePair p v) s .slotRange)

/-- R121: read_flags returns all eight bits of F, exactly as read_register F does, and changes no state. Its word is
`0x40000000`. -/
def Obligations.ReadFlagsReturnsF : Prop :=
  (∀ flagExt, Spells flagExt 0x40000000#32 .readFlags) ∧
  ∀ s : State, Returns .readFlags s ((readSlot s .F).setWidth 16) ∧ exec .readFlags s = exec (.readRegister 1) s

/-- R122: write_flags replaces all of F, exactly as write_register F does, and changes nothing else. Its word is
`0x50000000 | v`; with any other bit of the word set it faults with `FAULT_RESERVED_FIELD`. A value too wide is reduced
modulo 2^8 (R76); that a negative one is too is the model's choice (log 7). -/
def Obligations.WriteFlagsReplacesF : Prop :=
  (∀ (s : State) (v : Int),
    (∀ flagExt, 0 ≤ v → v ≤ 0xFF → Spells flagExt (0x50000000#32 ||| BitVec.ofInt 32 v) (.writeFlags v)) ∧
    exec (.writeFlags v) s = exec (.writeRegister 1 v) s ∧
    ∃ t, Writes (.writeFlags v) s t ∧ ((readSlot t .F).toNat : Int) = v % 2 ^ 8 ∧ t.sp = s.sp ∧ t.pc = s.pc ∧
      ∀ q, q ≠ .F → readSlot t q = readSlot s q) ∧
  ∀ (flagExt : Bool) (w : Word), w.toNat / 2 ^ 28 = 5 → 2 ^ 8 ≤ w.toNat % 2 ^ 28 →
    decode flagExt w = .error .reservedField

/-- R123: set_flag sets bit b of F, for b from 4 to 7, and changes nothing else, bits 3 to 0 of F among it. Its word is
`0x60000000 | (b << 22)`. Any other bit position faults with `FAULT_FLAG_BIT`. How a fault is answered: log 5. -/
def Obligations.SetFlagSetsOneBit : Prop :=
  ∀ (s : State) (b : Int),
    (4 ≤ b → b ≤ 7 →
      (∀ flagExt, Spells flagExt (0x60000000#32 ||| (BitVec.ofInt 32 b <<< 22)) (.setFlag b)) ∧
      ∃ t, Writes (.setFlag b) s t ∧ t.sp = s.sp ∧ t.pc = s.pc ∧
        (∀ q, q ≠ .F → readSlot t q = readSlot s q) ∧
        ∀ k : Nat, k < 8 → ((k : Int) = b → (readSlot t .F).getLsbD k = true) ∧
          ((k : Int) ≠ b → (readSlot t .F).getLsbD k = (readSlot s .F).getLsbD k)) ∧
    (b < 4 ∨ 7 < b → Raises (.setFlag b) s .flagBit)

/-- R124: reset_flag clears all eight bits of F, and changes nothing else, A among it. Its word is `0x70000000`. -/
def Obligations.ResetFlagClearsAllOfF : Prop :=
  (∀ flagExt, Spells flagExt 0x70000000#32 .resetFlag) ∧
  ∀ s : State, ∃ t, Writes .resetFlag s t ∧ readSlot t .F = 0x00#8 ∧ t.sp = s.sp ∧ t.pc = s.pc ∧
    ∀ q, q ≠ .F → readSlot t q = readSlot s q

/-- R125: with `FLAG_EXT`, clear_flag clears bit b of F, for b from 4 to 7, and changes nothing else; any other bit
position faults with `FAULT_FLAG_BIT`. Its word is `0xC0000000 | (b << 22)`. Without `FLAG_EXT` every word of OP 0xC,
and the operation, faults with `FAULT_ILLEGAL_OP`. How a fault is answered: log 5. -/
def Obligations.ClearFlagClearsOneBit : Prop :=
  (∀ (s : State) (b : Int), s.flagExt = true →
    (4 ≤ b → b ≤ 7 →
      Spells true (0xC0000000#32 ||| (BitVec.ofInt 32 b <<< 22)) (.clearFlag b) ∧
      ∃ t, Writes (.clearFlag b) s t ∧ t.sp = s.sp ∧ t.pc = s.pc ∧
        (∀ q, q ≠ .F → readSlot t q = readSlot s q) ∧
        ∀ k : Nat, k < 8 → ((k : Int) = b → (readSlot t .F).getLsbD k = false) ∧
          ((k : Int) ≠ b → (readSlot t .F).getLsbD k = (readSlot s .F).getLsbD k)) ∧
    (b < 4 ∨ 7 < b → Raises (.clearFlag b) s .flagBit)) ∧
  (∀ (s : State) (b : Int), s.flagExt = false → Raises (.clearFlag b) s .illegalOp) ∧
  ∀ w : Word, w.toNat / 2 ^ 28 = 0xC → decode false w = .error .illegalOp

/-- R126: with `FLAG_EXT`, get_flag returns bit b of F as 0x0000 or 0x0001, for b from 4 to 7, and changes no state; any
other bit position faults with `FAULT_FLAG_BIT`. Its word is `0xD0000000 | (b << 22)`. Without `FLAG_EXT` every word of
OP 0xD, and the operation, faults with `FAULT_ILLEGAL_OP`. How a fault is answered: log 5. -/
def Obligations.GetFlagReturnsOneBit : Prop :=
  (∀ (s : State) (b : Int), s.flagExt = true →
    (∀ k : Nat, 4 ≤ k → k ≤ 7 → (k : Int) = b →
      Spells true (0xD0000000#32 ||| (BitVec.ofInt 32 b <<< 22)) (.getFlag b) ∧
      Returns (.getFlag b) s (if (readSlot s .F).getLsbD k then 0x0001#16 else 0x0000#16)) ∧
    (b < 4 ∨ 7 < b → Raises (.getFlag b) s .flagBit)) ∧
  (∀ (s : State) (b : Int), s.flagExt = false → Raises (.getFlag b) s .illegalOp) ∧
  ∀ w : Word, w.toNat / 2 ^ 28 = 0xD → decode false w = .error .illegalOp

/-- R140 and R142: read_sp returns SP and read_pc returns PC, and neither changes any state: reading PC does not advance
it. The words are `0x80000000` and `0xA0000000`. -/
def Obligations.ReadSpAndReadPc : Prop :=
  (∀ flagExt, Spells flagExt 0x80000000#32 .readSp ∧ Spells flagExt 0xA0000000#32 .readPc) ∧
  ∀ s : State, Returns .readSp s s.sp ∧ Returns .readPc s s.pc

/-- R141: write_sp replaces SP, whatever the value, and changes nothing else. Its word is `0x90000000 | v`. A value too
wide is reduced modulo 2^16 (R76); that a negative one is too is the model's choice (log 7). -/
def Obligations.WriteSpReplacesSp : Prop :=
  ∀ (s : State) (v : Int),
    (∀ flagExt, 0 ≤ v → v ≤ 0xFFFF → Spells flagExt (0x90000000#32 ||| BitVec.ofInt 32 v) (.writeSp v)) ∧
    ∃ t, Writes (.writeSp v) s t ∧ (t.sp.toNat : Int) = v % 2 ^ 16 ∧ t.pc = s.pc ∧
      ∀ q, readSlot t q = readSlot s q

/-- R143: write_pc replaces PC, whatever the value, and changes nothing else. Its word is `0xB0000000 | v`. A value too
wide is reduced modulo 2^16 (R76); that a negative one is too is the model's choice (log 7). -/
def Obligations.WritePcReplacesPc : Prop :=
  ∀ (s : State) (v : Int),
    (∀ flagExt, 0 ≤ v → v ≤ 0xFFFF → Spells flagExt (0xB0000000#32 ||| BitVec.ofInt 32 v) (.writePc v)) ∧
    ∃ t, Writes (.writePc v) s t ∧ (t.pc.toNat : Int) = v % 2 ^ 16 ∧ t.sp = s.sp ∧
      ∀ q, readSlot t q = readSlot s q

/-- R21: every slot, F too, stores any byte and reads back the byte last written: no bit is hardwired or masked. -/
def Obligations.EverySlotReadsBackItsByte : Prop :=
  ∀ (s : State) (i : Int) (b : Byte), 0 ≤ i → i ≤ 7 →
    ∃ t, Writes (.writeRegister i b.toNat) s t ∧ Returns (.readRegister i) t (b.setWidth 16)

/-- R26: every slot is in exactly one pair; a write to one pair leaves what every other pair reads as; and a write to a
slot leaves what every pair that does not contain it reads as. -/
def Obligations.PairsAreDisjoint : Prop :=
  (∀ q : Slot, ∃ p, (q = pairHigh p ∨ q = pairLow p) ∧ ∀ p', (q = pairHigh p' ∨ q = pairLow p') → p' = p) ∧
  (∀ (s : State) (p p' : Pair) (v : Int), p ≠ p' →
    ∃ t u, Writes (.writePair (pairStart p) v) s t ∧ Returns (.readPair (pairStart p')) s u ∧
      Returns (.readPair (pairStart p')) t u) ∧
  ∀ (s : State) (q : Slot) (p : Pair) (v : Int), q ≠ pairHigh p → q ≠ pairLow p →
    ∃ t u, Writes (.writeRegister (slotIndex q) v) s t ∧ Returns (.readPair (pairStart p)) s u ∧
      Returns (.readPair (pairStart p)) t u

/-- R54: the slot view and the pair view alias the same storage. In every state a pair reads as its two slots read; a
slot write is seen by the next pair read; a pair write is seen by the next reads of both its slots. -/
def Obligations.SlotAndPairViewsAgree : Prop :=
  ∀ (s : State) (p : Int), IsPairStart p →
    ∃ high low : Byte,
      Returns (.readRegister p) s (high.setWidth 16) ∧ Returns (.readRegister (p + 1)) s (low.setWidth 16) ∧
      Returns (.readPair p) s (high ++ low) ∧
      (∀ b : Byte, ∃ t, Writes (.writeRegister p b.toNat) s t ∧ Returns (.readPair p) t (b ++ low)) ∧
      (∀ b : Byte, ∃ t, Writes (.writeRegister (p + 1) b.toNat) s t ∧ Returns (.readPair p) t (high ++ b)) ∧
      ∀ b c : Byte, ∃ t, Writes (.writePair p (b ++ c).toNat) s t ∧
        Returns (.readRegister p) t (b.setWidth 16) ∧ Returns (.readRegister (p + 1)) t (c.setWidth 16) ∧
        Returns (.readPair p) t (b ++ c)

/-- The laws of the flag family (41_flags.md, an inference the spec marks as derived): after reset_flag, F reads as 0
through both reads; setting, resetting and clearing are idempotent; two settings commute; and without the extension one
flag is cleared by reading F and writing it back without that bit, which is the state clear_flag would give. -/
def Obligations.FlagFamilyLaws : Prop :=
  (∀ s : State, ∃ t, Writes .resetFlag s t ∧ Returns .readFlags t 0x0000#16 ∧ Returns (.readRegister 1) t 0x0000#16 ∧
    exec .resetFlag t = .next t) ∧
  (∀ (s : State) (b : Int), 4 ≤ b → b ≤ 7 → ∃ t, Writes (.setFlag b) s t ∧ exec (.setFlag b) t = .next t) ∧
  (∀ (s : State) (b : Int), s.flagExt = true → 4 ≤ b → b ≤ 7 →
    ∃ t, Writes (.clearFlag b) s t ∧ exec (.clearFlag b) t = .next t) ∧
  (∀ (s : State) (b c : Int), 4 ≤ b → b ≤ 7 → 4 ≤ c → c ≤ 7 →
    ∃ t t' u, Writes (.setFlag b) s t ∧ Writes (.setFlag c) s t' ∧ Writes (.setFlag c) t u ∧ Writes (.setFlag b) t' u) ∧
  ∀ (s : State) (k : Nat), 4 ≤ k → k ≤ 7 →
    ∃ v : Half, Returns .readFlags s v ∧
      ∃ t, Writes (.writeFlags (v &&& ~~~(1#16 <<< k)).toNat) { s with response := some (.data v) } t ∧
        (s.flagExt = true → exec (.clearFlag k) s = .next t) ∧
        ∀ j, j < 8 → (readSlot t .F).getLsbD j = if j = k then false else (readSlot s .F).getLsbD j

/-- The operations that write F are only those 10_state.md section 3 lists (an inference the spec marks as derived):
when an operation that raises no fault changes F, it is one of them. -/
def Obligations.OnlyTheseOperationsWriteF : Prop :=
  ∀ (i : Instr) (s t : State), exec i s = .next t → t.fault = none → readSlot t .F ≠ readSlot s .F →
    (∃ v, i = .writeRegister 1 v) ∨ (∃ v, i = .writePair 0 v) ∨ (∃ v, i = .writeFlags v) ∨ (∃ b, i = .setFlag b) ∨
      i = .resetFlag ∨ ((∃ b, i = .clearFlag b) ∧ s.flagExt = true)

/-- The operations that read F are only those 10_state.md section 3 lists (an inference the spec marks as derived): the
response of every other operation is the same whatever F holds. -/
def Obligations.OtherOperationsAreBlindToF : Prop :=
  ∀ (i : Instr) (s : State) (f : Byte),
    i ≠ .readRegister 1 → i ≠ .readPair 0 → i ≠ .readFlags → (∀ b, i ≠ .getFlag b) →
    ∃ t t', exec i s = .next t ∧ exec i (writeSlot s .F f) = .next t' ∧ t'.response = t.response

/-- R144: the block does no arithmetic on SP or PC. An operation that raises no fault changes SP only if it is write_sp,
and PC only if it is write_pc, and then to the written value, reduced modulo 2^16 where it is too wide (R76). That a
negative value is reduced too is the model's choice (log 7). -/
def Obligations.SpAndPcChangeOnlyByTheirWrites : Prop :=
  ∀ (i : Instr) (s t : State), exec i s = .next t → t.fault = none →
    (t.sp ≠ s.sp → ∃ v, i = .writeSp v ∧ (t.sp.toNat : Int) = v % 2 ^ 16) ∧
    (t.pc ≠ s.pc → ∃ v, i = .writePc v ∧ (t.pc.toNat : Int) = v % 2 ^ 16)

/-- The laws of SP and PC and the round trip of the pairs (42_special_registers.md and 40_register_access.md, inferences
the spec marks as derived): a read after a write returns the written value. -/
def Obligations.WideReadsReturnTheWrittenValue : Prop :=
  ∀ (s : State) (v : Half),
    (∀ p, IsPairStart p → ∃ t, Writes (.writePair p v.toNat) s t ∧ Returns (.readPair p) t v) ∧
    (∃ t, Writes (.writeSp v.toNat) s t ∧ Returns .readSp t v ∧ t.pc = s.pc) ∧
    ∃ t, Writes (.writePc v.toNat) s t ∧ Returns .readPc t v ∧ t.sp = s.sp

/-- Repeating a request with the same operands leaves the same state and gives the same response (20_memory.md section
4, an inference the spec marks as derived), for every operation that raises no fault. -/
def Obligations.RequestsAreIdempotent : Prop :=
  ∀ (i : Instr) (s t : State), exec i s = .next t → t.fault = none → exec i t = .next t

/-- 70_reset_and_hazards.md sections 3 and 4: an operation whose operands keep the caller's contract, performed in any
state, answers a next state with a response that is no fault, and the fault state, the parameter and the port are as
before. It speaks of the operation: in a faulted block no step performs one (log 9), and what a step does is
StepRaisesTheFirstFault. -/
def Obligations.ContractKeepingOperationsComplete : Prop :=
  ∀ (i : Instr) (s : State), callFault s.flagExt i = none →
    ∃ t, exec i s = .next t ∧ BookkeepingKept s t ∧ (t.response = some .done ∨ ∃ v, t.response = some (.data v))

/-- R153: when a request, a word or a call with integer operands, meets more than one fault condition, the first of the
list is raised, and a request raises at most one fault. For every request at the port of a block without a fault, the
step answers a next state and the request is taken from the port. The fault is the one `requestFault` gives, which is
written from the table of R151 and the order of R153 over the numbers of the word. It is the response, and it is
recorded, with the word where the request is a word. Without one no fault is recorded and the response is no fault.
That a fault answers a next state is the model's choice (log 5). So is the code of a call with a negative pair select,
`FAULT_SLOT_RANGE`, which follows R76 ("outside 0 to 7") and not "greater than 7" of R151 and R153 (log 7). -/
def Obligations.StepRaisesTheFirstFault : Prop :=
  ∀ (s : State) (r : Request) (rest : List Offer), s.fault = none → s.queue = .single r :: rest →
    ∃ t, step s = .next t ∧ t.queue = rest ∧ t.flagExt = s.flagExt ∧
      (∀ c, requestFault s.flagExt r = some c →
        t.response = some (.fault c) ∧ ∃ word, t.fault = some ⟨c, word⟩ ∧ ∀ w, r = .word w → word = some w) ∧
      (requestFault s.flagExt r = none →
        t.fault = none ∧ (t.response = some .done ∨ ∃ v, t.response = some (.data v)))

/-- 60_exceptions.md section 1, the effect of a fault, (a): a faulted block takes no step, so no run continues. -/
def Obligations.FaultedBlockTakesNoStep : Prop :=
  ∀ (s : State) (r : FaultRecord) (n : Nat), s.fault = some r → core.run (n + 1) s = .fault (.blockFaulted r.code)

/-- R37: `fault` is none at creation, becomes `Fault(code)` when a request faults, and is never cleared. No operation
reads it, and none writes it but by faulting. That a fault answers a next state is the model's choice (log 5), and so
are what an operation does on a faulted state, where no step performs one (log 9), and the code of a call with a negative
pair select (log 7). -/
def Obligations.FaultIsRecordedAndNeverCleared : Prop :=
  (∀ init flagExt, (State.create init flagExt).fault = none) ∧
  (∀ (i : Instr) (s t : State), exec i s = .next t →
    (t.fault = s.fault ∧ ∀ c, t.response ≠ some (.fault c)) ∨
    ∃ r, t.fault = some r ∧ t.response = some (.fault r.code)) ∧
  (∀ (i : Instr) (s t : State), exec i s = .next t → s.fault ≠ none → t.fault ≠ none) ∧
  (∀ s t : State, step s = .next t → s.fault = none) ∧
  (∀ (s : State) (r : Request) (rest : List Offer) (c : FaultCode), s.fault = none → s.queue = .single r :: rest →
    requestFault s.flagExt r = some c → ∃ t w, step s = .next t ∧ t.fault = some ⟨c, w⟩) ∧
  ∀ (i : Instr) (s : State) (f : Option FaultRecord),
    ∃ t t', exec i s = .next t ∧ exec i { s with fault := f } = .next t' ∧ t'.response = t.response ∧
      (callFault s.flagExt i = none → t' = { t with fault := f })

/-- The encoding tables of 30_encoding.md sections 1 and 2: decoding the word of a well-formed operation gives it back,
with every operand at every value its field admits, on a block that has the operation. -/
def Obligations.DecodeOfEncodeIsTheOperation : Prop :=
  ∀ (flagExt : Bool) (i : Instr), i.wf = true → (i.needsFlagExt = true → flagExt = true) →
    decode flagExt (encode i) = .ok i

/-- 30_encoding.md section 4: every legal word names exactly one operation. A word that decodes is the word of the
operation it decodes to, which is well formed and which the block has. -/
def Obligations.EncodeOfDecodeIsTheWord : Prop :=
  ∀ (flagExt : Bool) (w : Word) (i : Instr), decode flagExt w = .ok i →
    encode i = w ∧ i.wf = true ∧ (i.needsFlagExt = true → flagExt = true)

/-- R75: every field an operation does not use must be zero, RSV for every operation and DATA[15:8] for the 8-bit writes
among them; a word of an existing operation with a nonzero unused field faults with `FAULT_RESERVED_FIELD`, and without
one it decodes. The fields are written as digits of the word, and their use is the "fields used" column of R74. -/
def Obligations.UnusedFieldsMustBeZero : Prop :=
  ∀ (flagExt : Bool) (w : Word), (w.toNat / 2 ^ 28 < 12 ∨ (flagExt = true ∧ w.toNat / 2 ^ 28 < 14)) →
    ((w.toNat / 2 ^ 16 % 2 ^ 6 ≠ 0 ∨
      (w.toNat / 2 ^ 25 % 2 ^ 3 ≠ 0 ∧ w.toNat / 2 ^ 28 ∉ [0x0, 0x1, 0x2, 0x3]) ∨
      (w.toNat / 2 ^ 22 % 2 ^ 3 ≠ 0 ∧ w.toNat / 2 ^ 28 ∉ [0x6, 0xC, 0xD]) ∨
      (w.toNat % 2 ^ 16 ≠ 0 ∧ w.toNat / 2 ^ 28 ∉ [0x1, 0x3, 0x5, 0x9, 0xB]) ∨
      (w.toNat / 2 ^ 8 % 2 ^ 8 ≠ 0 ∧ w.toNat / 2 ^ 28 ∈ [0x1, 0x5])) →
        decode flagExt w = .error .reservedField) ∧
    (¬(w.toNat / 2 ^ 16 % 2 ^ 6 ≠ 0 ∨
      (w.toNat / 2 ^ 25 % 2 ^ 3 ≠ 0 ∧ w.toNat / 2 ^ 28 ∉ [0x0, 0x1, 0x2, 0x3]) ∨
      (w.toNat / 2 ^ 22 % 2 ^ 3 ≠ 0 ∧ w.toNat / 2 ^ 28 ∉ [0x6, 0xC, 0xD]) ∨
      (w.toNat % 2 ^ 16 ≠ 0 ∧ w.toNat / 2 ^ 28 ∉ [0x1, 0x3, 0x5, 0x9, 0xB]) ∨
      (w.toNat / 2 ^ 8 % 2 ^ 8 ≠ 0 ∧ w.toNat / 2 ^ 28 ∈ [0x1, 0x5])) →
        ∃ i, decode flagExt w = .ok i)

/-- Words written out from 30_encoding.md and 95_test_vectors.md decode to the operations they stand for. -/
def Obligations.SampleWordsDecode : Prop :=
  decode false 0x04000000#32 = .ok (.readRegister 2) ∧
  decode false 0x160000EF#32 = .ok (.writeRegister 3 0xEF) ∧
  decode false 0x24000000#32 = .ok (.readPair 2) ∧
  decode false 0x30001234#32 = .ok (.writePair 0 0x1234) ∧
  decode false 0x500000B0#32 = .ok (.writeFlags 0xB0) ∧
  decode false 0x61C00000#32 = .ok (.setFlag 7) ∧
  decode false 0x9000FFFE#32 = .ok (.writeSp 0xFFFE) ∧
  decode false 0xB0000150#32 = .ok (.writePc 0x0150) ∧
  decode true 0xC1C00000#32 = .ok (.clearFlag 7) ∧
  decode true 0xD1000000#32 = .ok (.getFlag 4) ∧
  decode false 0xC1C00000#32 = .error .illegalOp ∧
  decode false 0x32021234#32 = .error .reservedField

/-- A step performs the operation of the request at the head of the port, on the state with that request taken from it
(20_memory.md section 5, 30_encoding.md section 3). The port is the model's (log 3). -/
def Obligations.StepRunsTheDecodedOperation : Prop :=
  ∀ (s : State) (rest : List Offer), s.fault = none →
    (∀ (w : Word) (i : Instr), s.queue = .single (.word w) :: rest → decode s.flagExt w = .ok i →
      step s = exec i { s with queue := rest }) ∧
    (∀ (w : Word) (c : FaultCode), s.queue = .single (.word w) :: rest → decode s.flagExt w = .error c →
      step s = raiseFault c (.word w) { s with queue := rest }) ∧
    ∀ i : Instr, s.queue = .single (.call i) :: rest → step s = exec i { s with queue := rest }

/-- R62: two requesters, or two requests overlapping in time, are refused. How they look at the port is log 10. -/
def Obligations.OverlappingRequestsAreRefused : Prop :=
  ∀ (s : State) (r r' : Request) (rest : List Offer), s.fault = none → s.queue = .overlap r r' :: rest →
    step s = .refused .overlappingRequests

/-- 00_scope.md section 1: the block performs nothing on its own initiative. A step that changes the state takes one
request from the head of the port; whatever a step does, `FLAG_EXT` is as at creation. A step with nothing at the port
leaves the state as it is (log 3). -/
def Obligations.EveryChangeIsCausedByOneRequest : Prop :=
  (∀ s : State, s.fault = none → s.queue = [] → step s = .next s) ∧
  ∀ s t : State, step s = .next t →
    t.flagExt = s.flagExt ∧ (t ≠ s → ∃ r rest, s.queue = .single r :: rest ∧ t.queue = rest)

/-- An invariant every step keeps, from every state: the recorded fault was the response, its word is one that the table
of 60_exceptions.md section 1 gives that code, and a response `fault(code)` is recorded. The word of a request with
integer operands is log 8, and that a fault answers a next state is log 5. -/
def Obligations.StepKeepsFaultJustified : Prop :=
  ∀ s t : State, s.FaultJustified → step s = .next t → t.FaultJustified

/-- The invariant holds of a created block, whatever `INIT` and `FLAG_EXT`, and so after reset. -/
def Obligations.CreatedBlockIsFaultJustified : Prop :=
  (∀ init flagExt, (State.create init flagExt).FaultJustified) ∧ State.reset.FaultJustified

/-- R59: requests take effect one at a time in the order of issue, and a bit holds what the most recent earlier write to
it left, or what it held at first (`INIT`, for a created block). For every fault-free block with the words of a sequence
of contract-keeping operations at the head of its port: the run of that many steps completes, without a fault, with
exactly those words taken, and every bit of every slot, SP and PC is the most recently written one. The port is the
model's (log 3). -/
def Obligations.LatestWriteIsWhatTheBlockHolds : Prop :=
  (∀ init flagExt, contents (State.create init flagExt) = init) ∧
  ∀ (s : State) (ops : List Instr) (rest : List Offer), s.fault = none →
    (∀ i ∈ ops, i.wf = true ∧ callFault s.flagExt i = none) →
    s.queue = ops.map (fun i => Offer.single (.word (encode i))) ++ rest →
    ∃ t, SafeRun ops.length s t ∧ t.queue = rest ∧ t.flagExt = s.flagExt ∧
      (∀ q k, k < 8 → (readSlot t q).getLsbD k = lastWritten (bitWritten q k) ops ((readSlot s q).getLsbD k)) ∧
      t.sp = lastWritten spWritten ops s.sp ∧ t.pc = lastWritten pcWritten ops s.pc

/-- 30_encoding.md section 5: every line of the assembler but `.word` assembles to a word that decodes to that line's own
operation with its own operands (`lineOperation`, whose numbers of names are written from the operand tables), and the
operation keeps the caller's contract, so no mnemonic can spell an odd pair select; `.word` gives the word it names; and
a line is refused exactly when an immediate is too large or the operation needs `FLAG_EXT` and the block has none. Two
refusals are the model's choice: of more than 32 bits by `.word` (log 12), and of clear_flag and get_flag without
`FLAG_EXT` (log 14). -/
def Obligations.AssembledLinesKeepTheContract : Prop :=
  (∀ (flagExt : Bool) (line : AsmLine) (w : Word), assemble flagExt line = some w →
    (∃ i, lineOperation line = some i ∧ decode flagExt w = .ok i ∧ callFault flagExt i = none) ∨
    ∃ n, line = .word n ∧ w.toNat = n) ∧
  ∀ (flagExt : Bool) (line : AsmLine), assemble flagExt line = none ↔
    (∃ r n, line = .writeRegister r n ∧ 0xFF < n) ∨ (∃ n, line = .writeFlags n ∧ 0xFF < n) ∨
    (∃ p n, line = .writePair p n ∧ 0xFFFF < n) ∨ (∃ n, line = .writeSp n ∧ 0xFFFF < n) ∨
    (∃ n, line = .writePc n ∧ 0xFFFF < n) ∨ (∃ n, line = .word n ∧ 0xFFFFFFFF < n) ∨
    (flagExt = false ∧ ((∃ f, line = .clearFlag f) ∨ ∃ f, line = .getFlag f))

/-- 30_encoding.md section 5: the text of every form, with every name and with every immediate in either form,
assembles to a word that decodes to the operation it names, with the operands it names; `.word` gives the word it names;
and a printed line reads back. The names and their numbers are written out from the operand tables. The exact spaces of
a text, the lower-case hexadecimal digits stated here and the decimal of a printed line are log 12. -/
def Obligations.AssemblerTextsSpellTheirOperations : Prop :=
  (∀ (flagExt : Bool) (r : String) (i : Int),
    (r, i) ∈ [("A", 0), ("F", 1), ("B", 2), ("C", 3), ("D", 4), ("E", 5), ("H", 6), ("L", 7)] →
      AssemblesTo flagExt ("read_register " ++ r) (.readRegister i) ∧
      ∀ n imm, n ≤ 0xFF → IsImmediate n imm →
        AssemblesTo flagExt ("write_register " ++ r ++ ", " ++ imm) (.writeRegister i n)) ∧
  (∀ (flagExt : Bool) (pp : String) (p : Int), (pp, p) ∈ [("AF", 0), ("BC", 2), ("DE", 4), ("HL", 6)] →
    AssemblesTo flagExt ("read_pair " ++ pp) (.readPair p) ∧
    ∀ n imm, n ≤ 0xFFFF → IsImmediate n imm →
      AssemblesTo flagExt ("write_pair " ++ pp ++ ", " ++ imm) (.writePair p n)) ∧
  (∀ (flagExt : Bool) (f : String) (b : Int),
    (f, b) ∈ [("ZERO", 7), ("SUBTRACT", 6), ("H_CARRY", 5), ("CARRY", 4)] →
      AssemblesTo flagExt ("set_flag " ++ f) (.setFlag b) ∧
      AssemblesTo true ("clear_flag " ++ f) (.clearFlag b) ∧ AssemblesTo true ("get_flag " ++ f) (.getFlag b)) ∧
  (∀ flagExt : Bool, AssemblesTo flagExt "read_flags" .readFlags ∧ AssemblesTo flagExt "reset_flag" .resetFlag ∧
    AssemblesTo flagExt "read_sp" .readSp ∧ AssemblesTo flagExt "read_pc" .readPc) ∧
  (∀ (flagExt : Bool) (n : Nat) (imm : String), IsImmediate n imm →
    (n ≤ 0xFF → AssemblesTo flagExt ("write_flags " ++ imm) (.writeFlags n)) ∧
    (n ≤ 0xFFFF → AssemblesTo flagExt ("write_sp " ++ imm) (.writeSp n) ∧
      AssemblesTo flagExt ("write_pc " ++ imm) (.writePc n)) ∧
    (n ≤ 0xFFFFFFFF → ∃ w, assembleText flagExt (".word " ++ imm) = some w ∧ w.toNat = n)) ∧
  ∀ line : AsmLine, readLine (lineText line) = some line
end

