-- ==== Sys2Proof/Laws/Assembler.lean ====
section
/-! SUPPORT. What the assembler's reader does: how a text splits into words, and that both forms of an immediate, and
every name, read back. -/

namespace Sys2Proof.Machine

/-- A character that is part of a word: no space and no comma. -/
def IsWordChar (c : Char) : Prop := c ≠ ' ' ∧ c ≠ ','

section Words
variable {w cs rest : List Char}

/-- The characters of a word are collected. -/
theorem tokens_word (h : ∀ c ∈ cs, IsWordChar c) : tokens w (cs ++ rest) = tokens (w ++ cs) rest := by
  induction cs generalizing w with
  | nil => simp
  | cons c cs ih =>
    have hc := h c (by simp)
    have := ih (w := w ++ [c]) (fun d hd => h d (by simp [hd]))
    simpa [tokens, hc.1, hc.2] using this

/-- A word at the end of a line is its last token. -/
theorem tokens_last (h : ∀ c ∈ cs, IsWordChar c) (hne : cs ≠ []) : tokens [] cs = [cs] := by
  have := tokens_word (w := []) (rest := []) h
  simp only [List.append_nil, List.nil_append] at this
  simp [this, tokens, hne]

/-- A space ends a word. -/
theorem tokens_space (h : ∀ c ∈ cs, IsWordChar c) (hne : cs ≠ []) :
    tokens [] (cs ++ ' ' :: rest) = cs :: tokens [] rest := by
  rw [tokens_word h]
  simp [tokens, hne]

/-- A comma ends a word and is a token by itself. -/
theorem tokens_comma (h : ∀ c ∈ cs, IsWordChar c) (hne : cs ≠ []) :
    tokens [] (cs ++ ',' :: ' ' :: rest) = cs :: [','] :: tokens [] rest := by
  rw [tokens_word h]
  simp [tokens, hne]

end Words

section Lines
variable {m : List Char} {text x y : String}

/-- A mnemonic with one operand is a line of one operand. -/
theorem readLine_one (ht : text.toList = m ++ [' ']) (hm : ∀ c ∈ m, IsWordChar c) (hm0 : m ≠ [])
    (hx : ∀ c ∈ x.toList, IsWordChar c) (hx0 : x.toList ≠ []) : readLine (text ++ x) = lineOfOne m x.toList := by
  simp only [readLine, String.toList_append, ht, List.append_assoc, List.singleton_append, tokens_space hm hm0,
    tokens_last hx hx0]

/-- A mnemonic with two operands is a line of two operands. -/
theorem readLine_two (ht : text.toList = m ++ [' ']) (hm : ∀ c ∈ m, IsWordChar c) (hm0 : m ≠ [])
    (hx : ∀ c ∈ x.toList, IsWordChar c) (hx0 : x.toList ≠ []) (hy : ∀ c ∈ y.toList, IsWordChar c)
    (hy0 : y.toList ≠ []) : readLine (text ++ x ++ ", " ++ y) = lineOfTwo m x.toList y.toList := by
  have split : (text ++ x ++ ", " ++ y).toList = m ++ ' ' :: (x.toList ++ ',' :: ' ' :: y.toList) := by
    simp [ht]
  have parts := tokens_space (rest := x.toList ++ ',' :: ' ' :: y.toList) hm hm0
  rw [tokens_comma hx hx0, tokens_last hy hy0, ← split] at parts
  simp only [readLine, parts]

end Lines

section Immediates
variable {b n d : Nat}

/-- The digit of a value is read as that value. -/
theorem digitValue_digitChar (hb : b ≤ 16) (hd : d < b) : digitValue b d.digitChar = some d := by
  have all : ∀ b : Fin 17, ∀ d : Fin 16, d.val < b.val → digitValue b d.val.digitChar = some d.val := by decide
  exact all ⟨b, by omega⟩ ⟨d, by omega⟩ hd

/-- A digit is part of a word. -/
theorem isWordChar_digitChar (hd : d < 16) : IsWordChar d.digitChar := by
  have all : ∀ d : Fin 16, d.val.digitChar ≠ ' ' ∧ d.val.digitChar ≠ ',' := by decide
  exact all ⟨d, hd⟩

theorem digits_append {v : Nat} (cs ds : List Char) {k : Nat} (h : digits b k cs = some v) :
    digits b k (cs ++ ds) = digits b v ds := by
  induction cs generalizing k with
  | nil => cases h; rfl
  | cons c cs ih =>
    cases hc : digitValue b c with
    | none => simp [digits, hc] at h
    | some x => simp only [digits, hc, List.cons_append] at h ⊢; exact ih h

/-- The digits of a number in a base up to 16 read back as that number. -/
theorem digits_toDigits (h1 : 1 < b) (hb : b ≤ 16) (n : Nat) : digits b 0 (b.toDigits n) = some n := by
  induction n using Nat.strongRecOn with
  | ind n ih =>
    by_cases hn : n < b
    · simp [Nat.toDigits_of_lt_base hn, digits, digitValue_digitChar hb hn]
    · have hmod : n % b < b := Nat.mod_lt _ (by omega)
      rw [Nat.toDigits_of_base_le h1 (by omega), digits_append _ _ (ih _ (Nat.div_lt_self (by omega) h1))]
      simp [digits, digitValue_digitChar hb hmod, Nat.div_add_mod']

theorem isWordChar_toDigits (h1 : 1 < b) (hb : b ≤ 16) (n : Nat) : ∀ c ∈ b.toDigits n, IsWordChar c := by
  induction n using Nat.strongRecOn with
  | ind n ih =>
    by_cases hn : n < b
    · simpa [Nat.toDigits_of_lt_base hn] using isWordChar_digitChar (by omega)
    · have hmod : n % b < b := Nat.mod_lt _ (by omega)
      rw [Nat.toDigits_of_base_le h1 (by omega)]
      intro c hc
      rcases List.mem_append.mp hc with hc | hc
      · exact ih _ (Nat.div_lt_self (by omega) h1) c hc
      · rw [List.mem_singleton.mp hc]; exact isWordChar_digitChar (by omega)

/-- The decimal form of an immediate reads back. -/
theorem number_decimal (n : Nat) : number (Nat.toDigits 10 n) = some n := by
  have h := digits_toDigits (b := 10) (by omega) (by omega) n
  unfold number
  split
  · rename_i h0; exact absurd h0 Nat.toDigits_ne_nil
  · rename_i c rest h0
    rw [h0] at h
    simp [digits, digitValue] at h
  · rename_i h0; rw [h0] at h; exact h

/-- The hexadecimal form of an immediate reads back. -/
theorem number_hexadecimal (n : Nat) : number ('0' :: 'x' :: Nat.toDigits 16 n) = some n := by
  have h := digits_toDigits (b := 16) (by omega) (by omega) n
  cases hd : Nat.toDigits 16 n with
  | nil => exact absurd hd Nat.toDigits_ne_nil
  | cons c rest => rw [hd] at h; exact h

end Immediates

section Names

@[simp] theorem namedSlot_slotName (r : Slot) : namedSlot (slotName r).toList = some r := by cases r <;> rfl
@[simp] theorem namedPair_pairName (pp : Pair) : namedPair (pairName pp).toList = some pp := by cases pp <;> rfl
@[simp] theorem namedFlag_flagName (f : FlagBit) : namedFlag (flagName f).toList = some f := by cases f <;> rfl

end Names

end Sys2Proof.Machine
end

