-- ==== Sys2Proof/Laws/Decode.lean ====
section
/-! SUPPORT. The fields of a request word as numbers, each field of an assembled word, and the word assembled again from
its own fields. -/

namespace Sys2Proof

/-- Two bit strings put together, as a number. -/
theorem append_toNat {m n : Nat} (x : BitVec m) (y : BitVec n) :
    (x ++ y).toNat = x.toNat * 2 ^ n + y.toNat := by
  rw [BitVec.toNat_append, ← Nat.shiftLeft_add_eq_or_of_lt y.isLt, Nat.shiftLeft_eq]

section Word
variable (w : Word)

theorem opField_toNat : (opField w).toNat = w.toNat / 2 ^ 28 := by
  have := w.isLt
  simp only [opField, BitVec.extractLsb'_toNat, Nat.shiftRight_eq_div_pow]
  omega

theorem idxField_toNat : (idxField w).toNat = w.toNat / 2 ^ 25 % 2 ^ 3 := by
  simp only [idxField, BitVec.extractLsb'_toNat, Nat.shiftRight_eq_div_pow]

theorem bitField_toNat : (bitField w).toNat = w.toNat / 2 ^ 22 % 2 ^ 3 := by
  simp only [bitField, BitVec.extractLsb'_toNat, Nat.shiftRight_eq_div_pow]

theorem rsvField_toNat : (rsvField w).toNat = w.toNat / 2 ^ 16 % 2 ^ 6 := by
  simp only [rsvField, BitVec.extractLsb'_toNat, Nat.shiftRight_eq_div_pow]

theorem dataField_toNat : (dataField w).toNat = w.toNat % 2 ^ 16 := by
  simp only [dataField, BitVec.extractLsb'_toNat, Nat.shiftRight_eq_div_pow]
  omega

theorem dataHigh_toNat : ((dataField w).extractLsb' 8 8).toNat = w.toNat / 2 ^ 8 % 2 ^ 8 := by
  simp only [BitVec.extractLsb'_toNat, Nat.shiftRight_eq_div_pow, dataField_toNat]
  omega

theorem dataLow_toNat : ((dataField w).extractLsb' 0 8).toNat = w.toNat % 2 ^ 8 := by
  simp only [BitVec.extractLsb'_toNat, Nat.shiftRight_eq_div_pow, dataField_toNat]
  omega

end Word

section Fields
variable (op : BitVec 4) (idx bit : BitVec 3) (data : Half)

/-- An assembled word as a number: the place values of R73. -/
theorem requestOf_toNat : (requestOf op idx bit data).toNat =
    op.toNat * 2 ^ 28 + idx.toNat * 2 ^ 25 + bit.toNat * 2 ^ 22 + data.toNat := by
  have h1 := op.isLt; have h2 := idx.isLt; have h3 := bit.isLt; have h4 := data.isLt
  simp only [requestOf, append_toNat, BitVec.toNat_ofNat]
  omega

/-- The spelling of the encodings in the spec: the fields shifted to their places and put together with or (R73). -/
theorem requestOf_eq_or : requestOf op idx bit data =
    op.setWidth 32 <<< 28 ||| idx.setWidth 32 <<< 25 ||| bit.setWidth 32 <<< 22 ||| data.setWidth 32 := by
  have h1 := op.isLt; have h2 := idx.isLt; have h3 := bit.isLt; have h4 := data.isLt
  have e1 : op.toNat * 2 ^ 28 + idx.toNat * 2 ^ 25 = (op.toNat * 2 ^ 3 + idx.toNat) * 2 ^ 25 := by omega
  have e2 : (op.toNat * 2 ^ 3 + idx.toNat) * 2 ^ 25 + bit.toNat * 2 ^ 22 =
    ((op.toNat * 2 ^ 3 + idx.toNat) * 2 ^ 3 + bit.toNat) * 2 ^ 22 := by ring
  have or (a b i : Nat) (h : b < 2 ^ i) : a * 2 ^ i ||| b = a * 2 ^ i + b := by
    rw [← Nat.shiftLeft_eq, Nat.shiftLeft_add_eq_or_of_lt h]
  apply BitVec.eq_of_toNat_eq
  rw [requestOf_toNat]
  simp only [BitVec.toNat_or, BitVec.toNat_shiftLeft, BitVec.toNat_setWidth, Nat.shiftLeft_eq]
  rw [Nat.mod_eq_of_lt (a := op.toNat) (by omega), Nat.mod_eq_of_lt (a := idx.toNat) (by omega),
    Nat.mod_eq_of_lt (a := bit.toNat) (by omega), Nat.mod_eq_of_lt (a := data.toNat) (by omega),
    Nat.mod_eq_of_lt (by omega), Nat.mod_eq_of_lt (by omega), Nat.mod_eq_of_lt (by omega),
    or _ _ 28 (by omega), e1, or _ _ 25 (by omega), e2, or _ _ 22 (by omega)]

@[simp] theorem opField_requestOf : opField (requestOf op idx bit data) = op := by
  have h1 := op.isLt; have h2 := idx.isLt; have h3 := bit.isLt; have h4 := data.isLt
  apply BitVec.eq_of_toNat_eq
  rw [opField_toNat, requestOf_toNat]
  omega

@[simp] theorem idxField_requestOf : idxField (requestOf op idx bit data) = idx := by
  have h1 := op.isLt; have h2 := idx.isLt; have h3 := bit.isLt; have h4 := data.isLt
  apply BitVec.eq_of_toNat_eq
  rw [idxField_toNat, requestOf_toNat]
  omega

@[simp] theorem bitField_requestOf : bitField (requestOf op idx bit data) = bit := by
  have h1 := op.isLt; have h2 := idx.isLt; have h3 := bit.isLt; have h4 := data.isLt
  apply BitVec.eq_of_toNat_eq
  rw [bitField_toNat, requestOf_toNat]
  omega

@[simp] theorem rsvField_requestOf : rsvField (requestOf op idx bit data) = 0 := by
  have h1 := op.isLt; have h2 := idx.isLt; have h3 := bit.isLt; have h4 := data.isLt
  apply BitVec.eq_of_toNat_eq
  rw [rsvField_toNat, requestOf_toNat]
  simp only [BitVec.ofNat_eq_ofNat, BitVec.toNat_ofNat]
  omega

@[simp] theorem dataField_requestOf : dataField (requestOf op idx bit data) = data := by
  have h1 := op.isLt; have h2 := idx.isLt; have h3 := bit.isLt; have h4 := data.isLt
  apply BitVec.eq_of_toNat_eq
  rw [dataField_toNat, requestOf_toNat]
  omega

/-- A word whose RSV is 0 is assembled from its own fields. -/
theorem requestOf_fields {w : Word} (h : rsvField w = 0) :
    requestOf (opField w) (idxField w) (bitField w) (dataField w) = w := by
  have h0 : (rsvField w).toNat = 0 := by rw [h]; rfl
  have hw := w.isLt
  apply BitVec.eq_of_toNat_eq
  rw [rsvField_toNat] at h0
  rw [requestOf_toNat, opField_toNat, idxField_toNat, bitField_toNat, dataField_toNat]
  omega

/-- An 8-bit write value is the low byte of its DATA field, and the high byte is 0. -/
@[simp] theorem extract_low_byte (b : Byte) : ((0#8 ++ b : BitVec 16)).extractLsb' 0 8 = b := by
  have h := b.isLt
  apply BitVec.eq_of_toNat_eq
  simp only [BitVec.extractLsb'_toNat, append_toNat, Nat.shiftRight_eq_div_pow, BitVec.toNat_ofNat]
  omega

@[simp] theorem extract_high_byte (b : Byte) : ((0#8 ++ b : BitVec 16)).extractLsb' 8 8 = 0 := by
  have h := b.isLt
  apply BitVec.eq_of_toNat_eq
  simp only [BitVec.extractLsb'_toNat, append_toNat, Nat.shiftRight_eq_div_pow, BitVec.ofNat_eq_ofNat,
    BitVec.toNat_ofNat]
  omega

/-- A DATA field whose high byte is 0 is its low byte, zero-extended. -/
theorem append_low_byte {d : Half} (h : d.extractLsb' 8 8 = 0) : (0#8 ++ d.extractLsb' 0 8 : BitVec 16) = d := by
  have h0 : (d.extractLsb' 8 8).toNat = 0 := by rw [h]; rfl
  have hd := d.isLt
  apply BitVec.eq_of_toNat_eq
  simp only [BitVec.extractLsb'_toNat, append_toNat, Nat.shiftRight_eq_div_pow, BitVec.toNat_ofNat] at h0 ⊢
  omega

/-- An 8-bit write value in a word. -/
theorem setWidth_low_byte (b : Byte) : (0#8 ++ b : BitVec 16).setWidth 32 = b.setWidth 32 := by
  apply BitVec.eq_of_toNat_eq
  have := b.isLt
  simp only [BitVec.toNat_setWidth, append_toNat, BitVec.toNat_ofNat]
  omega

end Fields

section Operands
variable {n : Nat}

/-- An integer fits a field of `n` bits when it lies in 0 to 2^n - 1. -/
theorem fitsField_iff {v : Int} : fitsField n v = true ↔ 0 ≤ v ∧ v < ((2 ^ n : Nat) : Int) := by
  simp only [fitsField, decide_eq_true_eq]

/-- An integer put into a field is the integer modulo the field's range (R76). -/
theorem ofInt_toNat (n : Nat) (v : Int) : ((BitVec.ofInt n v).toNat : Int) = v % ((2 ^ n : Nat) : Int) := by
  rw [BitVec.toNat_ofInt, Int.toNat_of_nonneg (Int.emod_nonneg _ (by positivity))]

/-- An integer that fits a field is what the field reads as. -/
theorem ofInt_toNat_of_fits {v : Int} (h : fitsField n v = true) : ((BitVec.ofInt n v).toNat : Int) = v := by
  obtain ⟨h0, h1⟩ := fitsField_iff.mp h
  rw [ofInt_toNat, Int.emod_eq_of_lt h0 h1]

/-- A field read as a number and put back is the field. -/
@[simp] theorem ofInt_natCast_toNat (x : BitVec n) : BitVec.ofInt n (x.toNat : Int) = x := by
  apply BitVec.eq_of_toNat_eq
  have h : ((x.toNat : Int) % ((2 ^ n : Nat) : Int)) = x.toNat := by
    exact Int.emod_eq_of_lt (by positivity) (by exact_mod_cast x.isLt)
  rw [BitVec.toNat_ofInt, h, Int.toNat_natCast]

/-- A field's number fits the field. -/
@[simp] theorem fitsField_natCast_toNat (x : BitVec n) : fitsField n (x.toNat : Int) = true :=
  fitsField_iff.mpr ⟨by positivity, by exact_mod_cast x.isLt⟩

/-- An integer that fits a field reads the same in a wider field. -/
theorem setWidth_ofInt_of_fits {m : Nat} (hnm : n ≤ m) {v : Int} (h : fitsField n v = true) :
    (BitVec.ofInt n v).setWidth m = BitVec.ofInt m v := by
  have hn := ofInt_toNat_of_fits h
  have h' : fitsField m v = true := by
    obtain ⟨h0, h1⟩ := fitsField_iff.mp h
    exact fitsField_iff.mpr ⟨h0, lt_of_lt_of_le h1 (by exact_mod_cast Nat.pow_le_pow_right (by decide) hnm)⟩
  have hm := ofInt_toNat_of_fits h'
  apply BitVec.eq_of_toNat_eq
  rw [BitVec.toNat_setWidth, Nat.mod_eq_of_lt (lt_of_lt_of_le (BitVec.isLt _) (Nat.pow_le_pow_right (by decide) hnm))]
  omega

end Operands

end Sys2Proof
end

