-- ==== Sys2Proof/Laws/State.lean ====
section
/-! SUPPORT. One lemma per field per update of the state, so that no proof unfolds a record update, and what a slot
reads as after each update. -/

namespace Sys2Proof.Machine

section Fields
variable (s : State) (q r : Slot) (p : Pair) (b : Byte) (v : Half) (a : Response) (c : FaultCode) (k : Request)

@[simp] theorem respond_slots : (respond a s).slots = s.slots := rfl
@[simp] theorem respond_sp : (respond a s).sp = s.sp := rfl
@[simp] theorem respond_pc : (respond a s).pc = s.pc := rfl
@[simp] theorem respond_fault : (respond a s).fault = s.fault := rfl
@[simp] theorem respond_flagExt : (respond a s).flagExt = s.flagExt := rfl
@[simp] theorem respond_queue : (respond a s).queue = s.queue := rfl
@[simp] theorem respond_response : (respond a s).response = some a := rfl
@[simp] theorem respond_freeDraws : (respond a s).freeDraws = s.freeDraws := rfl

@[simp] theorem writeSlot_sp : (writeSlot s r b).sp = s.sp := rfl
@[simp] theorem writeSlot_pc : (writeSlot s r b).pc = s.pc := rfl
@[simp] theorem writeSlot_fault : (writeSlot s r b).fault = s.fault := rfl
@[simp] theorem writeSlot_flagExt : (writeSlot s r b).flagExt = s.flagExt := rfl
@[simp] theorem writeSlot_queue : (writeSlot s r b).queue = s.queue := rfl
@[simp] theorem writeSlot_response : (writeSlot s r b).response = s.response := rfl
@[simp] theorem writeSlot_freeDraws : (writeSlot s r b).freeDraws = s.freeDraws := rfl

@[simp] theorem writePair_sp : (writePair s p v).sp = s.sp := rfl
@[simp] theorem writePair_pc : (writePair s p v).pc = s.pc := rfl
@[simp] theorem writePair_fault : (writePair s p v).fault = s.fault := rfl
@[simp] theorem writePair_flagExt : (writePair s p v).flagExt = s.flagExt := rfl
@[simp] theorem writePair_queue : (writePair s p v).queue = s.queue := rfl
@[simp] theorem writePair_response : (writePair s p v).response = s.response := rfl
@[simp] theorem writePair_freeDraws : (writePair s p v).freeDraws = s.freeDraws := rfl

@[simp] theorem writeSp_slots : (writeSp s v).slots = s.slots := rfl
@[simp] theorem writeSp_sp : (writeSp s v).sp = v := rfl
@[simp] theorem writeSp_pc : (writeSp s v).pc = s.pc := rfl
@[simp] theorem writeSp_fault : (writeSp s v).fault = s.fault := rfl
@[simp] theorem writeSp_flagExt : (writeSp s v).flagExt = s.flagExt := rfl
@[simp] theorem writeSp_queue : (writeSp s v).queue = s.queue := rfl
@[simp] theorem writeSp_response : (writeSp s v).response = s.response := rfl
@[simp] theorem writeSp_freeDraws : (writeSp s v).freeDraws = s.freeDraws := rfl

@[simp] theorem writePc_slots : (writePc s v).slots = s.slots := rfl
@[simp] theorem writePc_sp : (writePc s v).sp = s.sp := rfl
@[simp] theorem writePc_pc : (writePc s v).pc = v := rfl
@[simp] theorem writePc_fault : (writePc s v).fault = s.fault := rfl
@[simp] theorem writePc_flagExt : (writePc s v).flagExt = s.flagExt := rfl
@[simp] theorem writePc_queue : (writePc s v).queue = s.queue := rfl
@[simp] theorem writePc_response : (writePc s v).response = s.response := rfl
@[simp] theorem writePc_freeDraws : (writePc s v).freeDraws = s.freeDraws := rfl

@[simp] theorem faultState_fault : (faultState c k s).fault = some ⟨c, requestWord k⟩ := rfl
@[simp] theorem faultState_flagExt : (faultState c k s).flagExt = s.flagExt := rfl
@[simp] theorem faultState_queue : (faultState c k s).queue = s.queue := rfl
@[simp] theorem faultState_response : (faultState c k s).response = some (.fault c) := rfl
@[simp] theorem faultState_freeDraws : (faultState c k s).freeDraws = s.freeDraws + 1 := rfl

/-- A read of a slot gives what was written there, and every other slot is as before (R21, R105). -/
theorem readSlot_writeSlot : readSlot (writeSlot s r b) q = if q = r then b else readSlot s q := by
  cases q <;> cases r <;> rfl

@[simp] theorem readSlot_writeSlot_self : readSlot (writeSlot s r b) r = b := by
  simp [readSlot_writeSlot]

@[simp] theorem readSlot_respond : readSlot (respond a s) q = readSlot s q := by cases q <;> rfl
@[simp] theorem readSlot_writeSp : readSlot (writeSp s v) q = readSlot s q := by cases q <;> rfl
@[simp] theorem readSlot_writePc : readSlot (writePc s v) q = readSlot s q := by cases q <;> rfl

/-- A read reads only the slots. -/
theorem readSlot_of_slots {s t : State} (h : t.slots = s.slots) : readSlot t q = readSlot s q := by
  cases q <;> simp [readSlot, h]

/-- The two slots of a pair are not the same slot (R26). -/
theorem pairHigh_ne_pairLow : pairHigh p ≠ pairLow p := by cases p <;> decide

/-- A write of a pair puts its high byte in the high slot, its low byte in the low slot, and leaves every other slot
(R103, R105). -/
theorem readSlot_writePair : readSlot (writePair s p v) q =
    if q = pairLow p then lowByte v else if q = pairHigh p then highByte v else readSlot s q := by
  simp only [writePair, readSlot_writeSlot]

/-- Two states with the same slot reads have the same slots. -/
theorem slots_ext {x y : State} (h : ∀ q, readSlot x q = readSlot y q) : x.slots = y.slots := by
  rcases x with ⟨⟨⟩, _⟩
  rcases y with ⟨⟨⟩, _⟩
  have hA := h .A; have hF := h .F; have hB := h .B; have hC := h .C
  have hD := h .D; have hE := h .E; have hH := h .H; have hL := h .L
  simp_all [readSlot]

end Fields

end Sys2Proof.Machine
end

