-- ==== Sys2Proof/Laws/Exec.lean ====
section
/-! SUPPORT. What each shared operation can do, said once: the operand forms, the single answer of a fault, and the
request port. -/

namespace Sys2Proof.Machine

section OperandForms

/-- Every slot is named by its index (R70). -/
@[simp] theorem slotOf_slotIndex (q : Slot) : slotOf (slotIndex q) = some q := by cases q <;> rfl

/-- An index names a slot exactly when it is that slot's index (R70). -/
theorem slotOf_eq_some {i : Int} {q : Slot} : slotOf i = some q ↔ i = slotIndex q := by
  constructor
  · intro h
    unfold slotOf at h
    split at h <;> cases h <;> rfl
  · rintro rfl
    exact slotOf_slotIndex q

/-- An index names no slot exactly when it is outside 0 to 7 (R76). -/
theorem slotOf_eq_none {i : Int} : slotOf i = none ↔ i < 0 ∨ 7 < i := by
  constructor
  · intro h
    by_contra hi
    have : i = 0 ∨ i = 1 ∨ i = 2 ∨ i = 3 ∨ i = 4 ∨ i = 5 ∨ i = 6 ∨ i = 7 := by omega
    rcases this with rfl | rfl | rfl | rfl | rfl | rfl | rfl | rfl <;> simp [slotOf] at h
  · intro h
    unfold slotOf
    split <;> first | omega | rfl

/-- Every index from 0 to 7 is a slot's (R70). -/
theorem exists_slotIndex {i : Int} (h0 : 0 ≤ i) (h7 : i ≤ 7) : ∃ q, slotIndex q = i := by
  cases h : slotOf i with
  | none => have := slotOf_eq_none.mp h; omega
  | some q => exact ⟨q, (slotOf_eq_some.mp h).symm⟩

/-- No two slots have one index (R70). -/
theorem slotIndex_inj {q r : Slot} : slotIndex q = slotIndex r ↔ q = r := by
  constructor
  · intro h
    simpa using congrArg slotOf h
  · rintro rfl
    rfl

/-- A pair's high slot has the pair's start as its index, and its low slot the next one (R25). -/
@[simp] theorem slotIndex_pairHigh (p : Pair) : slotIndex (pairHigh p) = pairStart p := by cases p <;> rfl

@[simp] theorem slotIndex_pairLow (p : Pair) : slotIndex (pairLow p) = pairStart p + 1 := by cases p <;> rfl

/-- A select names a pair exactly when it is that pair's start (R71). -/
theorem pairOf_eq_ok {p : Int} {pair : Pair} : pairOf p = .ok pair ↔ p = pairStart pair := by
  constructor
  · intro h
    unfold pairOf at h
    split at h <;> cases h <;> (rename_i hs; exact slotOf_eq_some.mp hs)
  · rintro rfl
    cases pair <;> rfl

/-- A select raises `FAULT_SLOT_RANGE` exactly when it is outside 0 to 7 (R76, R153). -/
theorem pairOf_eq_slotRange {p : Int} : pairOf p = .error .slotRange ↔ p < 0 ∨ 7 < p := by
  rw [← slotOf_eq_none]
  unfold pairOf
  split <;> simp_all

/-- A select raises `FAULT_PAIR_START` exactly when it is an odd index of a slot (R71). -/
theorem pairOf_eq_pairStart {p : Int} : pairOf p = .error .pairStart ↔ p = 1 ∨ p = 3 ∨ p = 5 ∨ p = 7 := by
  constructor
  · intro h
    unfold pairOf at h
    split at h <;> cases h <;> (rename_i hs; have := slotOf_eq_some.mp hs; simp [slotIndex] at this; omega)
  · rintro (rfl | rfl | rfl | rfl) <;> rfl

/-- A bit position names a flag exactly when it is that flag's position (R72). -/
theorem flagOf_eq_some {b : Int} {f : FlagBit} : flagOf b = some f ↔ b = flagPosition f := by
  constructor
  · intro h
    unfold flagOf at h
    split at h <;> cases h <;> rfl
  · rintro rfl
    cases f <;> rfl

/-- A bit position names no flag exactly when it is outside 4 to 7 (R72, R123). -/
theorem flagOf_eq_none {b : Int} : flagOf b = none ↔ b < 4 ∨ 7 < b := by
  constructor
  · intro h
    by_contra hb
    have : b = 4 ∨ b = 5 ∨ b = 6 ∨ b = 7 := by omega
    rcases this with rfl | rfl | rfl | rfl <;> simp [flagOf] at h
  · intro h
    unfold flagOf
    split <;> first | omega | rfl

end OperandForms

section FlagBits
variable (v : Byte) (f : FlagBit) (k : Nat)

/-- A set flag: its own bit is 1 and every other bit is as before (R123). -/
theorem getLsbD_setFlagIn (hk : k < 8) :
    (setFlagIn v f).getLsbD k = if k = flagPosition f then true else v.getLsbD k := by
  interval_cases k <;> cases f <;> simp [setFlagIn, flagMask, flagPosition]

/-- A cleared flag: its own bit is 0 and every other bit is as before (R125). -/
theorem getLsbD_clearFlagIn (hk : k < 8) :
    (clearFlagIn v f).getLsbD k = if k = flagPosition f then false else v.getLsbD k := by
  interval_cases k <;> cases f <;> simp [clearFlagIn, flagMask, flagPosition]

/-- A flag's value is its bit as 0 or 1 (R126). -/
theorem flagValue_eq : flagValue v f = if v.getLsbD (flagPosition f) then 1#8 else 0#8 := by
  revert v
  cases f <;> decide

end FlagBits

section Answers
variable {s t : State}

@[simp] theorem raiseFault_eq_next {c : FaultCode} {k : Request} :
    raiseFault c k s = .next t ↔ faultState c k s = t := by simp [raiseFault]

@[simp] theorem answerData_eq_next {v : Half} : answerData v s = .next t ↔ respond (.data v) s = t := by
  simp [answerData]

@[simp] theorem answerDone_eq_next : answerDone s = .next t ↔ respond .done s = t := by simp [answerDone]

/-- Everything an operation can do: raise a fault (R152); change nothing but the response (a read); or write one slot,
one pair, SP or PC and answer `done`. -/
inductive Effect (i : Instr) (s : State) : State → Prop where
  | fault (c : FaultCode) : Effect i s (faultState c (.call i) s)
  | read (v : Half) : Effect i s (respond (.data v) s)
  | slot (q : Slot) (b : Byte) : Effect i s (respond .done (writeSlot s q b))
  | pair (p : Pair) (v : Half) : Effect i s (respond .done (writePair s p v))
  | sp (v : Half) : Effect i s (respond .done (writeSp s v))
  | pc (v : Half) : Effect i s (respond .done (writePc s v))

/-- Every operation answers a next state, and it is one of the effects. -/
theorem exec_effect (i : Instr) (s : State) : ∃ t, exec i s = .next t ∧ Effect i s t := by
  cases i <;> simp only [exec, execReadRegister, execWriteRegister, execReadPair, execWritePair, execReadFlags,
    execWriteFlags, execSetFlag, execResetFlag, execReadSp, execWriteSp, execReadPc, execWritePc, execClearFlag,
    execGetFlag]
  all_goals (repeat' split)
  all_goals first
    | exact ⟨_, rfl, .fault _⟩
    | exact ⟨_, rfl, .read _⟩
    | exact ⟨_, rfl, .slot _ _⟩
    | exact ⟨_, rfl, .pair _ _⟩
    | exact ⟨_, rfl, .sp _⟩
    | exact ⟨_, rfl, .pc _⟩

/-- The same for a state that an operation is known to answer. -/
theorem effect_of_exec {i : Instr} (h : exec i s = .next t) : Effect i s t := by
  obtain ⟨t', ht, he⟩ := exec_effect i s
  rw [ht] at h
  cases h
  exact he

end Answers

section Port
variable {s : State}

/-- A faulted block takes no step (R152(a)). -/
theorem fetch_faulted {r : FaultRecord} (h : s.fault = some r) : fetch s = .stop (.blockFaulted r.code) := by
  simp [fetch, h]

/-- Nothing at the port (R2). -/
theorem fetch_empty (h : s.fault = none) (hq : s.queue = []) : fetch s = .idle := by simp [fetch, h, hq]

/-- Overlapping requests (R62). -/
theorem fetch_overlap {r r' : Request} {rest : List Offer} (h : s.fault = none)
    (hq : s.queue = .overlap r r' :: rest) : fetch s = .refuse .overlappingRequests := by simp [fetch, h, hq]

/-- A request that is an operation. -/
theorem fetch_run {r : Request} {rest : List Offer} {i : Instr} (h : s.fault = none)
    (hq : s.queue = .single r :: rest) (hr : requestOperation s.flagExt r = .ok i) :
    fetch s = .run i { s with queue := rest } := by simp [fetch, h, hq, hr]

/-- A request that does not decode. -/
theorem fetch_bad {r : Request} {rest : List Offer} {c : FaultCode} (h : s.fault = none)
    (hq : s.queue = .single r :: rest) (hr : requestOperation s.flagExt r = .error c) :
    fetch s = .bad c r { s with queue := rest } := by simp [fetch, h, hq, hr]

end Port

end Sys2Proof.Machine
end

