-- ==== Sys2Proof/Laws/Operations.lean ====
section
/-! SUPPORT. One lemma per operation that has operands to check: what it answers where they are good, and, once for all
of them, that it raises the fault `callFault` names where they are not. -/

namespace Sys2Proof.Machine

section GoodOperands
variable (s : State)

theorem exec_readRegister (q : Slot) :
    exec (.readRegister (slotIndex q)) s = .next (respond (.data (zext16 (readSlot s q))) s) := by
  simp [exec, execReadRegister, answerData]

theorem exec_writeRegister (q : Slot) (v : Int) :
    exec (.writeRegister (slotIndex q) v) s = .next (respond .done (writeSlot s q (byteOf v))) := by
  simp [exec, execWriteRegister, answerDone]

theorem exec_readPair (p : Pair) :
    exec (.readPair (pairStart p)) s = .next (respond (.data (readPair s p)) s) := by
  simp [exec, execReadPair, pairOf_eq_ok.mpr rfl, answerData]

theorem exec_writePair (p : Pair) (v : Int) :
    exec (.writePair (pairStart p) v) s = .next (respond .done (writePair s p (halfOf v))) := by
  simp [exec, execWritePair, pairOf_eq_ok.mpr rfl, answerDone]

theorem exec_setFlag (f : FlagBit) :
    exec (.setFlag (flagPosition f)) s = .next (respond .done (writeSlot s .F (setFlagIn (readSlot s .F) f))) := by
  simp [exec, execSetFlag, flagOf_eq_some.mpr rfl, answerDone]

theorem exec_clearFlag (f : FlagBit) (h : s.flagExt = true) :
    exec (.clearFlag (flagPosition f)) s = .next (respond .done (writeSlot s .F (clearFlagIn (readSlot s .F) f))) := by
  simp [exec, execClearFlag, flagOf_eq_some.mpr rfl, answerDone, h]

theorem exec_getFlag (f : FlagBit) (h : s.flagExt = true) :
    exec (.getFlag (flagPosition f)) s = .next (respond (.data (zext16 (flagValue (readSlot s .F) f))) s) := by
  simp [exec, execGetFlag, flagOf_eq_some.mpr rfl, answerData, h]

end GoodOperands

section BadOperands
variable {s : State} {c : FaultCode} {i p v b : Int}

/-- A select that names no pair raises the fault of the contract. -/
theorem pairOf_error (h : pairOf p = .error c) (e : Bool) : callFault e (.readPair p) = some c := by
  by_cases hp : 0 ≤ p ∧ p ≤ 7
  · obtain ⟨q, rfl⟩ := exists_slotIndex hp.1 hp.2
    cases q <;> cases h <;> rfl
  · rw [pairOf_eq_slotRange.mpr (by omega)] at h
    cases h
    simp [callFault, hp]

/-- A select that breaks the contract names no pair, and with that fault. -/
theorem pairOf_of_callFault {e : Bool} (h : callFault e (.readPair p) = some c) : pairOf p = .error c := by
  cases hp : pairOf p with
  | error c' =>
    rw [pairOf_error hp e] at h
    cases h
    rfl
  | ok pair =>
    rw [pairOf_eq_ok] at hp
    subst hp
    cases pair <;> cases h

/-- An operation that breaks the caller's contract (R175) raises the fault of the contract. -/
theorem exec_of_callFault {op : Instr} (h : callFault s.flagExt op = some c) : exec op s = raiseFault c (.call op) s := by
  have slots : ∀ {i : Int}, (if 0 ≤ i ∧ i ≤ 7 then none else some FaultCode.slotRange) = some c →
      slotOf i = none ∧ c = .slotRange := by
    intro i h
    split at h <;> cases h
    exact ⟨slotOf_eq_none.mpr (by omega), rfl⟩
  have flags : ∀ {b : Int}, (if 4 ≤ b ∧ b ≤ 7 then none else some FaultCode.flagBit) = some c →
      flagOf b = none ∧ c = .flagBit := by
    intro b h
    split at h <;> cases h
    exact ⟨flagOf_eq_none.mpr (by omega), rfl⟩
  cases op
  case readRegister i => obtain ⟨hs, rfl⟩ := slots h; simp [exec, execReadRegister, hs]
  case writeRegister i v => obtain ⟨hs, rfl⟩ := slots h; simp [exec, execWriteRegister, hs]
  case readPair p => simp [exec, execReadPair, pairOf_of_callFault h]
  case writePair p v => simp [exec, execWritePair, pairOf_of_callFault (p := p) (e := s.flagExt) h]
  case setFlag b => obtain ⟨hs, rfl⟩ := flags h; simp [exec, execSetFlag, hs]
  case clearFlag b =>
    cases he : s.flagExt <;> simp only [callFault, he] at h
    · cases h; simp [exec, execClearFlag, he]
    · obtain ⟨hs, rfl⟩ := flags h; simp [exec, execClearFlag, hs, he]
  case getFlag b =>
    cases he : s.flagExt <;> simp only [callFault, he] at h
    · cases h; simp [exec, execGetFlag, he]
    · obtain ⟨hs, rfl⟩ := flags h; simp [exec, execGetFlag, hs, he]
  all_goals cases h

end BadOperands

end Sys2Proof.Machine
end

