-- ==== Sys2Proof/Laws/PerInstr.lean ====
section
/-! SUPPORT. Statements about an instruction as syntax, one lemma per constructor. Family `EncodesCleanly`: the word of
an instruction carries the OP of its row of R74, and RSV and the fields the row does not use are 0. -/

namespace Sys2Proof.Laws.EncodesCleanly

/-- The OP of a row of R74. -/
def opOf : Instr → Nat
  | .readRegister _ => 0x0
  | .writeRegister _ _ => 0x1
  | .readPair _ => 0x2
  | .writePair _ _ => 0x3
  | .readFlags => 0x4
  | .writeFlags _ => 0x5
  | .setFlag _ => 0x6
  | .resetFlag => 0x7
  | .readSp => 0x8
  | .writeSp _ => 0x9
  | .readPc => 0xA
  | .writePc _ => 0xB
  | .clearFlag _ => 0xC
  | .getFlag _ => 0xD

/-- The OP field is the row's, and no unused field is set. -/
def Statement (i : Instr) : Prop := (opField (encode i)).toNat = opOf i ∧ unusedFieldSet (encode i) = false

theorem readRegister (i : Int) : Statement (.readRegister i) := by simp [Statement, opOf, encode, unusedFieldSet]
theorem writeRegister (i v : Int) : Statement (.writeRegister i v) := by
  simp [Statement, opOf, encode, unusedFieldSet]
theorem readPair (p : Int) : Statement (.readPair p) := by simp [Statement, opOf, encode, unusedFieldSet]
theorem writePair (p v : Int) : Statement (.writePair p v) := by simp [Statement, opOf, encode, unusedFieldSet]
theorem readFlags : Statement .readFlags := by simp [Statement, opOf, encode, unusedFieldSet]
theorem writeFlags (v : Int) : Statement (.writeFlags v) := by simp [Statement, opOf, encode, unusedFieldSet]
theorem setFlag (b : Int) : Statement (.setFlag b) := by simp [Statement, opOf, encode, unusedFieldSet]
theorem resetFlag : Statement .resetFlag := by simp [Statement, opOf, encode, unusedFieldSet]
theorem readSp : Statement .readSp := by simp [Statement, opOf, encode, unusedFieldSet]
theorem writeSp (v : Int) : Statement (.writeSp v) := by simp [Statement, opOf, encode, unusedFieldSet]
theorem readPc : Statement .readPc := by simp [Statement, opOf, encode, unusedFieldSet]
theorem writePc (v : Int) : Statement (.writePc v) := by simp [Statement, opOf, encode, unusedFieldSet]
theorem clearFlag (b : Int) : Statement (.clearFlag b) := by simp [Statement, opOf, encode, unusedFieldSet]
theorem getFlag (b : Int) : Statement (.getFlag b) := by simp [Statement, opOf, encode, unusedFieldSet]

end Sys2Proof.Laws.EncodesCleanly
end

