-- ==== Sys2Proof/Laws/Run.lean ====
section
/-! SUPPORT. One step of a run, for any machine and for this one. -/

namespace Sys2Proof.Machine

section AnyMachine
variable {M : Host.Core} {n : Nat} {s t : M.State}

theorem run_succ_of_next (h : M.step s = .next t) : M.run (n + 1) s = M.run n t := by
  simp only [Host.Core.run, h]

theorem run_succ_of_fault {r : M.Fault} (h : M.step s = .fault r) : M.run (n + 1) s = .fault r := by
  simp only [Host.Core.run, h]

end AnyMachine

section ThisMachine
variable {n : Nat} {s t u : State}

/-- A run of no step is the state itself. -/
theorem core_run_zero : core.run 0 s = .next s := rfl

/-- A run goes on from what its first step answers. -/
theorem core_run_succ (h : step s = .next t) : core.run (n + 1) s = core.run n t :=
  run_succ_of_next (M := core) h

/-- A run whose first step stops with a fault stops with it. -/
theorem core_run_fault {r : Fault} (h : step s = .fault r) : core.run (n + 1) s = .fault r :=
  run_succ_of_fault (M := core) h

/-- A safe run goes on from what its first step answers (R152(b)). -/
theorem safeRun_succ (h : step s = .next t) (hr : SafeRun n t u) : SafeRun (n + 1) s u :=
  ⟨(core_run_succ h).trans hr.1, hr.2⟩

end ThisMachine

end Sys2Proof.Machine
end

