-- ==== Sys2Proof/Tests/Slice0.lean ====
section
/-! SUPPORT. Tests. Every expected result comes from spec/95_test_vectors.md or from the example of a rule, named in each
group; words are written out from 30_encoding.md R73. Then a witness for the hypotheses of each statement. -/

namespace Sys2Proof.Machine.Tests

/-- The start state most vectors of 95_test_vectors.md use. -/
def init1 : Contents := ⟨⟨0x11, 0xA5, 0x12, 0x34, 0x56, 0x78, 0x9A, 0xBC⟩, 0xFFFE, 0x0100⟩

/-- The vectors' start state with only F given, the other slots 0 (A too). -/
def initF (f : Byte) : Contents := ⟨⟨0, f, 0, 0, 0, 0, 0, 0⟩, 0xFFFE, 0x0100⟩

/-- One request word on a created block: the response and the ten values after the step. -/
def serve (flagExt : Bool) (init : Contents) (w : Word) : Option (Option Response × Contents) :=
  match step { State.create init flagExt with queue := [.single (.word w)] } with
  | .next t => some (t.response, contents t)
  | .fault _ => none
  | .refused _ => none

/-- One request word on a created block: the response and the fault state after the step. -/
def faultOf (flagExt : Bool) (w : Word) : Option (Option Response × Option FaultRecord) :=
  match step { State.create init1 flagExt with queue := [.single (.word w)] } with
  | .next t => some (t.response, t.fault)
  | .fault _ => none
  | .refused _ => none

/-! ### Decoding: every constructor from a word of its rule's example, or of a vector -/

theorem test_decode_read_register : decode false 0x04000000#32 = .ok (.readRegister 2) := by decide
theorem test_decode_write_register : decode false 0x1E0000FF#32 = .ok (.writeRegister 7 0xFF) := by decide
theorem test_decode_read_pair : decode false 0x2C000000#32 = .ok (.readPair 6) := by decide
theorem test_decode_write_pair : decode false 0x3400BEEF#32 = .ok (.writePair 2 0xBEEF) := by decide
theorem test_decode_read_flags : decode false 0x40000000#32 = .ok .readFlags := by decide
theorem test_decode_write_flags : decode false 0x500000B0#32 = .ok (.writeFlags 0xB0) := by decide
theorem test_decode_set_flag : decode false 0x61400000#32 = .ok (.setFlag 5) := by decide
theorem test_decode_reset_flag : decode false 0x70000000#32 = .ok .resetFlag := by decide
theorem test_decode_read_sp : decode false 0x80000000#32 = .ok .readSp := by decide
theorem test_decode_write_sp : decode false 0x90001235#32 = .ok (.writeSp 0x1235) := by decide
theorem test_decode_read_pc : decode false 0xA0000000#32 = .ok .readPc := by decide
theorem test_decode_write_pc : decode false 0xB000FFFF#32 = .ok (.writePc 0xFFFF) := by decide
theorem test_decode_clear_flag : decode true 0xC1800000#32 = .ok (.clearFlag 6) := by decide
theorem test_decode_get_flag : decode true 0xD1000000#32 = .ok (.getFlag 4) := by decide
theorem test_decode_odd_pair : decode false 0x22000000#32 = .ok (.readPair 1) := by decide
theorem test_decode_low_flag_bit : decode false 0x60C00000#32 = .ok (.setFlag 3) := by decide
/-- V53, V38, V18, V20, V21, V35. -/
theorem test_decode_rejects :
    decode true 0xE0000000#32 = .error .illegalOp ∧ decode false 0xC1C00000#32 = .error .illegalOp ∧
    decode false 0x14000100#32 = .error .reservedField ∧ decode false 0x05400000#32 = .error .reservedField ∧
    decode false 0x30011234#32 = .error .reservedField ∧ decode false 0x65C00000#32 = .error .reservedField := by decide

/-! ### Well-formedness: an ill-formed term for each check -/

theorem test_wf_refuses_read_register : (Instr.readRegister 8).wf = false ∧ (Instr.readRegister (-1)).wf = false := by
  decide
theorem test_wf_refuses_write_register :
    (Instr.writeRegister 8 0).wf = false ∧ (Instr.writeRegister 0 0x100).wf = false := by decide
theorem test_wf_refuses_read_pair : (Instr.readPair 8).wf = false := by decide
theorem test_wf_refuses_write_pair :
    (Instr.writePair (-2) 0).wf = false ∧ (Instr.writePair 6 0x10000).wf = false := by decide
theorem test_wf_refuses_write_flags : (Instr.writeFlags 0x100).wf = false := by decide
theorem test_wf_refuses_flag_bits :
    (Instr.setFlag 8).wf = false ∧ (Instr.clearFlag 8).wf = false ∧ (Instr.getFlag (-1)).wf = false := by decide
theorem test_wf_refuses_wide_values : (Instr.writeSp 0x10000).wf = false ∧ (Instr.writePc (-1)).wf = false := by decide
theorem test_wf_accepts_odd_pair : (Instr.readPair 7).wf = true ∧ (Instr.setFlag 0).wf = true := by decide

/-! ### One step of each operation -/

/-- V2. -/
theorem test_read_register_F : serve false init1 0x02000000#32 = some (some (.data 0x00A5), init1) := by decide
/-- V4, first request: L becomes 0xFF and nothing else changes. -/
theorem test_write_register_L : serve false init1 0x1E0000FF#32 =
    some (some .done, { init1 with slots := { init1.slots with l := 0xFF } }) := by decide
/-- V5, first request: the low nibble of F is stored. -/
theorem test_write_register_F : serve false init1 0x1200000F#32 =
    some (some .done, { init1 with slots := { init1.slots with f := 0x0F } }) := by decide
/-- V6: the low byte 0x80 is not sign-extended. -/
theorem test_read_pair_unsigned :
    (serve false ⟨⟨0, 0, 0x12, 0x80, 0, 0, 0, 0⟩, 0xFFFE, 0x0100⟩ 0x24000000#32).map (·.1) =
      some (some (.data 0x1280)) := by decide
/-- Program P1 step 7. -/
theorem test_read_pair_AF : serve false init1 0x20000000#32 = some (some (.data 0x11A5), init1) := by decide
/-- R103's example. -/
theorem test_write_pair_AF : serve false init1 0x30001234#32 =
    some (some .done, { init1 with slots := { init1.slots with a := 0x12, f := 0x34 } }) := by decide
/-- V12, first request. -/
theorem test_write_pair_DE : serve false init1 0x3800ABCD#32 =
    some (some .done, { init1 with slots := { init1.slots with d := 0xAB, e := 0xCD } }) := by decide
/-- V31, first request. -/
theorem test_read_flags : serve false (initF 0xB0) 0x40000000#32 = some (some (.data 0x00B0), initF 0xB0) := by decide
/-- V30, first request. -/
theorem test_write_flags : serve false (initF 0xA5) 0x5000000F#32 = some (some .done, initF 0x0F) := by decide
/-- V26: the low nibble is kept. -/
theorem test_set_flag_keeps_nibble : serve false (initF 0x05) 0x61000000#32 = some (some .done, initF 0x15) := by decide
/-- V22. -/
theorem test_set_flag_zero : serve false (initF 0x00) 0x61C00000#32 = some (some .done, initF 0x80) := by decide
/-- V28: A is untouched. -/
theorem test_reset_flag : serve false { init1 with slots := { init1.slots with f := 0xFF } } 0x70000000#32 =
    some (some .done, { init1 with slots := { init1.slots with f := 0x00 } }) := by decide
/-- V46. -/
theorem test_read_sp : serve false init1 0x80000000#32 = some (some (.data 0xFFFE), init1) := by decide
/-- V48: an odd value, no alignment. -/
theorem test_write_sp : serve false init1 0x90001235#32 = some (some .done, { init1 with sp := 0x1235 }) := by decide
/-- V46: a read does not advance PC. -/
theorem test_read_pc : serve false init1 0xA0000000#32 = some (some (.data 0x0100), init1) := by decide
/-- V50, first request. -/
theorem test_write_pc : serve false init1 0xB0000150#32 = some (some .done, { init1 with pc := 0x0150 }) := by decide
/-- V41. -/
theorem test_clear_flag : serve true (initF 0x9F) 0xC1000000#32 = some (some .done, initF 0x8F) := by decide
/-- V43. -/
theorem test_get_flag : serve true (initF 0x90) 0xD1C00000#32 = some (some (.data 0x0001), initF 0x90) ∧
    serve true (initF 0x90) 0xD1800000#32 = some (some (.data 0x0000), initF 0x90) := by decide

/-! ### Faults, their priority, and the faulted block -/

/-- V14, V15: an odd pair select. -/
theorem test_fault_pair_start :
    faultOf false 0x22000000#32 = some (some (.fault .pairStart), some ⟨.pairStart, some 0x22000000#32⟩) ∧
    faultOf false 0x3E001234#32 = some (some (.fault .pairStart), some ⟨.pairStart, some 0x3E001234#32⟩) := by decide
/-- V33, V44, V45. -/
theorem test_fault_flag_bit :
    faultOf false 0x60C00000#32 = some (some (.fault .flagBit), some ⟨.flagBit, some 0x60C00000#32⟩) ∧
    faultOf true 0xD0800000#32 = some (some (.fault .flagBit), some ⟨.flagBit, some 0xD0800000#32⟩) ∧
    faultOf true 0xC0400000#32 = some (some (.fault .flagBit), some ⟨.flagBit, some 0xC0400000#32⟩) := by decide
/-- V39, V54: the OP check comes first. -/
theorem test_fault_illegal_op :
    faultOf false 0xD1000000#32 = some (some (.fault .illegalOp), some ⟨.illegalOp, some 0xD1000000#32⟩) ∧
    faultOf true 0xFFFFFFFF#32 = some (some (.fault .illegalOp), some ⟨.illegalOp, some 0xFFFFFFFF#32⟩) := by decide
/-- V55, V56: an unused field is checked before the pair start and the flag bit. -/
theorem test_fault_priority :
    faultOf false 0x32021234#32 = some (some (.fault .reservedField), some ⟨.reservedField, some 0x32021234#32⟩) ∧
    faultOf false 0x60800001#32 = some (some (.fault .reservedField), some ⟨.reservedField, some 0x60800001#32⟩) := by
  decide
/-- V57, V58: no step after a fault. -/
theorem test_no_step_when_faulted :
    (match step { State.create init1 false with
        fault := some ⟨.illegalOp, some 0xE0000000#32⟩, queue := [.single (.word 0x70000000#32)] } with
      | .fault (.blockFaulted .illegalOp) => true
      | _ => false) = true := by decide
/-- R76, R102: an integer pair select outside 0 to 7 is `FAULT_SLOT_RANGE`, and no word is recorded for it. -/
theorem test_integer_operand_range :
    (match exec (.readPair 9) (State.create init1 false) with
      | .next t => t.fault == some ⟨.slotRange, none⟩
      | _ => false) = true := by decide
/-- R76: an integer value is reduced modulo 2^8. -/
theorem test_integer_value_reduced :
    (match exec (.writeRegister 0 0x1FF) (State.create init1 false) with
      | .next t => readSlot t .A == 0xFF#8
      | _ => false) = true := by decide
/-- R151: the numbers of the codes, 0 for none. -/
theorem test_fault_numbers : faultStatus (State.create init1 false) = 0 ∧
    [FaultCode.illegalOp, .reservedField, .slotRange, .pairStart, .flagBit].map faultNumber = [1, 2, 3, 4, 5] := by
  decide

/-! ### Masks (R120), the assembler (R81), and the host's two placements -/

theorem test_masks : [FlagBit.zero, .subtract, .hCarry, .carry].map flagMask = [0x80#8, 0x40#8, 0x20#8, 0x10#8] := by
  decide
/-- V10, V23, V40 and an immediate too large (R81), and a line of the extension without it (log 14). -/
theorem test_assemble :
    assemble false (.writePair .HL 0xFFFF) = some 0x3C00FFFF#32 ∧
    assemble false (.setFlag .subtract) = some 0x61800000#32 ∧
    assemble true (.clearFlag .zero) = some 0xC1C00000#32 ∧ assemble false (.clearFlag .zero) = none ∧
    assemble false (.writeFlags 0x100) = none := by decide
theorem test_line_text :
    lineText (.readPair .BC) = "read_pair BC" ∧ lineText (.setFlag .hCarry) = "set_flag H_CARRY" := by decide
/-- V5, V26, P1 step 3, E7 and V14 as texts, decimal and a text that is no line. -/
theorem test_assemble_text :
    assembleText false "write_register F, 0x0F" = some 0x1200000F#32 ∧
    assembleText false "set_flag CARRY" = some 0x61000000#32 ∧
    assembleText false "write_pair BC, 22136" = some 0x34005678#32 ∧
    assembleText false "read_pair BC" = some 0x24000000#32 ∧
    assembleText false ".word 0x22000000" = some 0x22000000#32 ∧
    assembleText false "read_pair F" = none ∧ assembleText false "write_flags 0x100" = none := by decide
theorem test_table_word : decodeTableWord 32 0xC0000000 = some (.clearFlag 0) := by decide
theorem test_with_fetch_word :
    (match step (State.reset.withFetchWord 32 0xC1C00000) with
      | .next t => t.response == some .done
      | _ => false) = true := by decide

/-! ### Witnesses: the hypotheses of each statement can be met, at the ends of the ranges -/

/-- ReadRegisterReturnsTheSlot, WriteRegisterStoresOneByte, EverySlotReadsBackItsByte: both ends of the index range and
both sides out of it; the largest byte; and a word of OP 1 with DATA[15:8] set. -/
theorem witness_slot_operands :
    ((0 : Int) ≤ 0 ∧ (0 : Int) ≤ 7 ∧ slotIndex .A = 0) ∧ ((0 : Int) ≤ 7 ∧ (7 : Int) ≤ 7 ∧ slotIndex .L = 7) ∧
    slotIndex .A ≠ 7 ∧ ((-1 : Int) < 0 ∨ (7 : Int) < -1) ∧ ((8 : Int) < 0 ∨ (7 : Int) < 8) ∧
    ((0 : Int) ≤ 0xFF ∧ (0xFF : Int) ≤ 0xFF) ∧
    ((0x14000100#32).toNat / 2 ^ 28 = 1 ∧ 2 ^ 8 ≤ (0x14000100#32).toNat % 2 ^ 16) := by decide
/-- ReadPairComposesItsSlots, WritePairSplitsItsValue, SlotAndPairViewsAgree, WideReadsReturnTheWrittenValue. -/
theorem witness_pair_operands :
    (IsPairStart 0 ∧ slotIndex .A = 0 ∧ slotIndex .F = 0 + 1) ∧ (IsPairStart 6 ∧ slotIndex .H = 6 ∧ slotIndex .L = 6 + 1) ∧
    (slotIndex .B ≠ 0 ∧ slotIndex .B ≠ 0 + 1) ∧ ((7 : Int) = 1 ∨ (7 : Int) = 3 ∨ (7 : Int) = 5 ∨ (7 : Int) = 7) ∧
    ((8 : Int) < 0 ∨ (7 : Int) < 8) ∧ ((-1 : Int) < 0 ∨ (7 : Int) < -1) ∧
    ((0 : Int) ≤ 0xFFFF ∧ (0xFFFF : Int) ≤ 0xFFFF) := by
  unfold IsPairStart
  decide
/-- WriteFlagsReplacesF: the largest byte, a slot that is not F, and a word of OP 5 with IDX set. -/
theorem witness_write_flags : ((0 : Int) ≤ 0xFF ∧ (0xFF : Int) ≤ 0xFF) ∧ Slot.A ≠ .F ∧
    ((0x5E000000#32).toNat / 2 ^ 28 = 5 ∧ 2 ^ 8 ≤ (0x5E000000#32).toNat % 2 ^ 28) := by decide
/-- SetFlagSetsOneBit, FlagFamilyLaws: both ends of the range, the bits b and not b, and both sides out of it. -/
theorem witness_set_flag :
    ((4 : Int) ≤ 4 ∧ (4 : Int) ≤ 7) ∧ ((4 : Int) ≤ 7 ∧ (7 : Int) ≤ 7) ∧ (7 < 8 ∧ ((7 : Nat) : Int) = 7) ∧
    (0 < 8 ∧ ((0 : Nat) : Int) ≠ 7) ∧ ((3 : Int) < 4 ∨ (7 : Int) < 3) ∧ ((8 : Int) < 4 ∨ (7 : Int) < 8) := by decide
/-- ClearFlagClearsOneBit, GetFlagReturnsOneBit, FlagFamilyLaws: blocks with and without the extension, both ends of the
range, and words of OP 0xC and 0xD. -/
theorem witness_flag_extension :
    (State.create init1 true).flagExt = true ∧ (State.create init1 false).flagExt = false ∧
    ((4 : Nat) ≤ 4 ∧ (4 : Nat) ≤ 7 ∧ ((4 : Nat) : Int) = 4) ∧ ((4 : Nat) ≤ 7 ∧ (7 : Nat) ≤ 7 ∧ ((7 : Nat) : Int) = 7) ∧
    ((0 : Int) < 4 ∨ (7 : Int) < 0) ∧ (0xC1C00000#32).toNat / 2 ^ 28 = 0xC ∧ (0xD1C00000#32).toNat / 2 ^ 28 = 0xD := by
  decide
/-- WriteSpReplacesSp, WritePcReplacesPc: both ends of the value range. -/
theorem witness_wide_values :
    ((0 : Int) ≤ 0 ∧ (0 : Int) ≤ 0xFFFF) ∧ ((0 : Int) ≤ 0xFFFF ∧ (0xFFFF : Int) ≤ 0xFFFF) := by decide
/-- PairsAreDisjoint: two pairs, and a slot outside a pair. -/
theorem witness_disjoint : Pair.AF ≠ .BC ∧ Slot.L ≠ pairHigh .AF ∧ Slot.L ≠ pairLow .AF ∧ Slot.F = pairLow .AF := by
  decide
/-- OnlyTheseOperationsWriteF: reset_flag on F = 0xA5. -/
theorem witness_writes_F : ∃ t, exec .resetFlag (State.create init1 false) = .next t ∧ t.fault = none ∧
    readSlot t .F ≠ readSlot (State.create init1 false) .F := ⟨_, rfl, rfl, by decide⟩
/-- OtherOperationsAreBlindToF: read_register of the slot next to F, and read_pair of the pair next to AF. -/
theorem witness_blind_to_F :
    (Instr.readRegister 2 ≠ .readRegister 1 ∧ Instr.readRegister 2 ≠ .readPair 0 ∧ Instr.readRegister 2 ≠ .readFlags ∧
      ∀ b, Instr.readRegister 2 ≠ .getFlag b) ∧
    (Instr.readPair 2 ≠ .readRegister 1 ∧ Instr.readPair 2 ≠ .readPair 0 ∧ Instr.readPair 2 ≠ .readFlags ∧
      ∀ b, Instr.readPair 2 ≠ .getFlag b) := by simp
/-- SpAndPcChangeOnlyByTheirWrites: write_sp 0 changes SP, write_pc 0 changes PC. -/
theorem witness_sp_pc :
    (∃ t, exec (.writeSp 0) (State.create init1 false) = .next t ∧ t.fault = none ∧
      t.sp ≠ (State.create init1 false).sp) ∧
    (∃ t, exec (.writePc 0) (State.create init1 false) = .next t ∧ t.fault = none ∧
      t.pc ≠ (State.create init1 false).pc) := ⟨⟨_, rfl, rfl, by decide⟩, ⟨_, rfl, rfl, by decide⟩⟩
/-- RequestsAreIdempotent: write_pair HL. -/
theorem witness_idempotent : ∃ t, exec (.writePair 6 0xFFFF) (State.create init1 false) = .next t ∧ t.fault = none :=
  ⟨_, rfl, rfl⟩
/-- ContractKeepingOperationsComplete: each end of each operand's range, and an extension operation. -/
theorem witness_contract :
    callFault false (.readRegister 7) = none ∧ callFault false (.writeRegister 0 0xFF) = none ∧
    callFault false (.readPair 6) = none ∧ callFault false (.writePair 0 0) = none ∧
    callFault false (.setFlag 4) = none ∧ callFault true (.clearFlag 7) = none ∧ callFault true (.getFlag 4) = none ∧
    callFault false .readSp = none := by decide
/-- StepRaisesTheFirstFault: blocks with one word or one call at the port, with a fault of each code and without one. -/
theorem witness_first_fault :
    (State.create init1 false).fault = none ∧
    { State.create init1 false with queue := [.single (.word 0x3E001234#32)] }.queue =
      .single (.word 0x3E001234#32) :: [] ∧
    requestFault false (.word 0x3E001234#32) = some .pairStart ∧
    requestFault false (.word 0x32021234#32) = some .reservedField ∧
    requestFault false (.word 0xE0000000#32) = some .illegalOp ∧
    requestFault false (.word 0x60C00000#32) = some .flagBit ∧
    requestFault false (.call (.readPair 9)) = some .slotRange ∧
    requestFault false (.call (.readPair (-1))) = some .slotRange ∧
    requestFault false (.call (.readPair 7)) = some .pairStart ∧
    requestFault false (.word 0x3C00FFFF#32) = none ∧ requestFault false (.call (.readPair 6)) = none := by decide
/-- FaultedBlockTakesNoStep: a faulted block. -/
theorem witness_faulted :
    { State.create init1 false with fault := some ⟨.pairStart, some 0x22000000#32⟩ }.fault =
      some ⟨.pairStart, some 0x22000000#32⟩ := by decide
/-- FaultIsRecordedAndNeverCleared: an operation on a faulted block, a step, a faulting request at the port, and a
contract-keeping operation. -/
theorem witness_recorded :
    (∃ t, exec .readSp { State.create init1 false with fault := some ⟨.flagBit, none⟩ } = .next t ∧
      { State.create init1 false with fault := some ⟨.flagBit, none⟩ }.fault ≠ none) ∧
    (∃ t, step (State.create init1 false) = .next t) ∧
    requestFault (State.create init1 false).flagExt (.word 0x22000000#32) = some .pairStart ∧
    callFault (State.create init1 false).flagExt .readSp = none :=
  ⟨⟨_, rfl, by decide⟩, ⟨_, rfl⟩, by decide, by decide⟩
/-- DecodeOfEncodeIsTheOperation, EncodeOfDecodeIsTheWord. -/
theorem witness_encoding :
    ((Instr.writePair 6 0xFFFF).wf = true ∧ ((Instr.writePair 6 0xFFFF).needsFlagExt = true → false = true)) ∧
    ((Instr.getFlag 7).wf = true ∧ ((Instr.getFlag 7).needsFlagExt = true → true = true)) ∧
    decode false 0x3C00FFFF#32 = .ok (.writePair 6 0xFFFF) := by decide
/-- UnusedFieldsMustBeZero: a word of the last operation of each kind, with and without an unused field set. -/
theorem witness_unused_fields :
    ((0xB0010000#32).toNat / 2 ^ 28 < 12 ∧ (0xB0010000#32).toNat / 2 ^ 16 % 2 ^ 6 ≠ 0) ∧
    ((0xDE000000#32).toNat / 2 ^ 28 < 14 ∧
      (0xDE000000#32).toNat / 2 ^ 25 % 2 ^ 3 ≠ 0 ∧ (0xDE000000#32).toNat / 2 ^ 28 ∉ [0x0, 0x1, 0x2, 0x3]) ∧
    ((0x1E0000FF#32).toNat / 2 ^ 28 < 12 ∧ (0x1E0000FF#32).toNat / 2 ^ 16 % 2 ^ 6 = 0 ∧
      (0x1E0000FF#32).toNat / 2 ^ 28 ∈ [0x0, 0x1, 0x2, 0x3] ∧ (0x1E0000FF#32).toNat / 2 ^ 22 % 2 ^ 3 = 0 ∧
      (0x1E0000FF#32).toNat / 2 ^ 28 ∈ [0x1, 0x3, 0x5, 0x9, 0xB] ∧ (0x1E0000FF#32).toNat / 2 ^ 8 % 2 ^ 8 = 0) := by
  decide
/-- StepRunsTheDecodedOperation, OverlappingRequestsAreRefused, EveryChangeIsCausedByOneRequest: a port with a word that
decodes, one that does not, a call, an overlap, nothing, and a step that changes the state. -/
theorem witness_step :
    (State.create init1 false).fault = none ∧ (State.create init1 false).queue = [] ∧
    decode (State.create init1 false).flagExt 0x70000000#32 = .ok .resetFlag ∧
    decode (State.create init1 false).flagExt 0xE0000000#32 = .error .illegalOp ∧
    { State.create init1 false with queue := [.single (.call .readSp)] }.queue = .single (.call .readSp) :: [] ∧
    { State.create init1 false with queue := [.overlap (.call .readSp) (.call .readPc)] }.queue =
      .overlap (.call .readSp) (.call .readPc) :: [] ∧
    ∃ t, step { State.create init1 false with queue := [.single (.call .resetFlag)] } = .next t ∧
      t ≠ { State.create init1 false with queue := [.single (.call .resetFlag)] } :=
  ⟨rfl, rfl, by decide, by decide, rfl, rfl, _, rfl, by decide⟩
/-- StepKeepsFaultJustified: a created block meets the invariant, and a step of it answers. -/
theorem witness_invariant : (State.create init1 true).FaultJustified ∧ ∃ t, step (State.create init1 true) = .next t :=
  ⟨⟨fun r h => by simp [State.create] at h, fun c h => by simp [State.create] at h⟩, _, rfl⟩
/-- LatestWriteIsWhatTheBlockHolds: two contract-keeping operations at the port of a created block. -/
theorem witness_latest_write :
    (State.create init1 false).fault = none ∧
    (∀ i ∈ [Instr.writeRegister 1 0x0F, .setFlag 7], i.wf = true ∧ callFault false i = none) ∧
    { State.create init1 false with
        queue := [.single (.word 0x1200000F#32), .single (.word 0x61C00000#32)] }.queue =
      [Instr.writeRegister 1 0x0F, .setFlag 7].map (fun i => Offer.single (.word (encode i))) ++ [] := by decide
/-- AssembledLinesKeepTheContract: a line with its operation, `.word`, and a line that is refused. -/
theorem witness_assembler :
    assemble false (.writePair .HL 0xFFFF) = some 0x3C00FFFF#32 ∧
    lineOperation (.writePair .HL 0xFFFF) = some (.writePair 6 0xFFFF) ∧
    assemble false (.word 0xFFFFFFFF) = some 0xFFFFFFFF#32 ∧ assemble false (.writePair .HL 0x10000) = none := by decide
/-- AssemblerTextsSpellTheirOperations: a name of each table, and immediates in both forms at the ends of the ranges. -/
theorem witness_assembler_text :
    ("L", (7 : Int)) ∈ [("A", 0), ("F", 1), ("B", 2), ("C", 3), ("D", 4), ("E", 5), ("H", 6), ("L", 7)] ∧
    ("HL", (6 : Int)) ∈ [("AF", 0), ("BC", 2), ("DE", 4), ("HL", 6)] ∧
    ("CARRY", (4 : Int)) ∈ [("ZERO", 7), ("SUBTRACT", 6), ("H_CARRY", 5), ("CARRY", 4)] ∧
    (0 ≤ 0xFF ∧ IsImmediate 0 "0") ∧ (0xFFFF ≤ 0xFFFF ∧ IsImmediate 0xFFFF "0xffff") := by
  simp only [IsImmediate]
  decide

end Sys2Proof.Machine.Tests
end

section
/-! Proofs: what one step answers, case by case of the port, and that every change of state takes one request (R2, R59). -/

namespace Sys2Proof.Machine

section Steps
variable {s t : State} {r : Request} {rest : List Offer} {c : FaultCode} {i : Instr}

/-- A faulted block takes no step (R152(a)). -/
theorem step_faulted {f : FaultRecord} (h : s.fault = some f) : step s = .fault (.blockFaulted f.code) := by
  simp only [step, fetch_faulted h]

/-- With nothing at the port a step changes nothing (R2). -/
theorem step_empty (h : s.fault = none) (hq : s.queue = []) : step s = .next s := by
  simp only [step, fetch_empty h hq]

/-- Overlapping requests have no meaning (R62). -/
theorem step_overlap {r' : Request} (h : s.fault = none) (hq : s.queue = .overlap r r' :: rest) :
    step s = .refused .overlappingRequests := by
  simp only [step, fetch_overlap h hq]

/-- A request that does not decode faults, and is taken (R78). -/
theorem step_bad (h : s.fault = none) (hq : s.queue = .single r :: rest)
    (hr : requestOperation s.flagExt r = .error c) : step s = raiseFault c r { s with queue := rest } := by
  simp only [step, fetch_bad h hq hr]

/-- A request that is an operation is taken and performed. -/
theorem step_run (h : s.fault = none) (hq : s.queue = .single r :: rest)
    (hr : requestOperation s.flagExt r = .ok i) : step s = exec i { s with queue := rest } := by
  simp only [step, fetch_run h hq hr]

/-- Everything a step that answers a next state can do: nothing, at an empty port; or take the single request at the
head of the port, which faults in the decoder or is performed. -/
inductive StepEffect (s : State) : State → Prop where
  | idle (hf : s.fault = none) (hq : s.queue = []) : StepEffect s s
  | bad (r : Request) (rest : List Offer) (c : FaultCode) (hf : s.fault = none) (hq : s.queue = .single r :: rest)
      (hr : requestOperation s.flagExt r = .error c) : StepEffect s (faultState c r { s with queue := rest })
  | run (r : Request) (rest : List Offer) (i : Instr) (t : State) (hf : s.fault = none)
      (hq : s.queue = .single r :: rest) (hr : requestOperation s.flagExt r = .ok i)
      (he : Effect i { s with queue := rest } t) : StepEffect s t

/-- A state that a step answers is one of the step's effects. -/
theorem stepEffect_of_step (h : step s = .next t) : StepEffect s t := by
  cases hf : s.fault with
  | some f => simp [step_faulted hf] at h
  | none =>
    match hq : s.queue with
    | [] =>
      rw [step_empty hf hq] at h
      cases h
      exact .idle hf hq
    | .overlap r r' :: rest => simp [step_overlap hf hq] at h
    | .single r :: rest =>
      cases hr : requestOperation s.flagExt r with
      | error c =>
        rw [step_bad hf hq hr, raiseFault_eq_next] at h
        exact h ▸ .bad r rest c hf hq hr
      | ok i =>
        rw [step_run hf hq hr] at h
        exact .run r rest i t hf hq hr (effect_of_exec h)

/-- No operation writes `FLAG_EXT` (R5). -/
theorem Effect.flagExt_eq (h : Effect i s t) : t.flagExt = s.flagExt := by
  cases h <;> simp

/-- No operation touches the port. -/
theorem Effect.queue_eq (h : Effect i s t) : t.queue = s.queue := by
  cases h <;> simp

/-- No step writes `FLAG_EXT` (R5). -/
theorem StepEffect.flagExt_eq (h : StepEffect s t) : t.flagExt = s.flagExt := by
  cases h with
  | idle => rfl
  | bad => simp
  | run _ _ _ _ _ _ _ he => exact he.flagExt_eq

/-- A step that is not the idle one has taken exactly the request at the head of the port (R59). -/
theorem StepEffect.takes_one_request (h : StepEffect s t) (hne : t ≠ s) :
    ∃ r rest, s.queue = .single r :: rest ∧ t.queue = rest := by
  cases h with
  | idle => exact absurd rfl hne
  | bad r rest _ _ hq => exact ⟨r, rest, hq, by simp⟩
  | run r rest _ _ _ hq _ he => exact ⟨r, rest, hq, he.queue_eq⟩

end Steps

/-- Settles O34: the idle step is `step_empty`, and of a step that answers the two claims are read off its effect. -/
theorem everyChangeIsCausedByOneRequest : Obligations.EveryChangeIsCausedByOneRequest := by
  unfold Obligations.EveryChangeIsCausedByOneRequest
  refine ⟨fun s => step_empty, fun s t h => ?_⟩
  have effect := stepEffect_of_step h
  exact ⟨effect.flagExt_eq, effect.takes_one_request⟩

end Sys2Proof.Machine
end

section
/-! Proofs: the family 10_state.md. What a created block holds, and what a slot and a pair read as after a
write. -/

namespace Sys2Proof.Machine

section Answered
variable (s : State) (q : Slot) (p : Pair) (v : Int)

/-- read_register in the statements' own terms (R100). -/
theorem returns_readRegister : Returns (.readRegister (slotIndex q)) s ((readSlot s q).setWidth 16) :=
  exec_readRegister s q

/-- read_pair in the statements' own terms (R102). -/
theorem returns_readPair : Returns (.readPair (pairStart p)) s (readPair s p) := exec_readPair s p

/-- read_sp in the statements' own terms (R140). -/
theorem returns_readSp : Returns .readSp s s.sp := rfl

/-- read_pc in the statements' own terms (R142). -/
theorem returns_readPc : Returns .readPc s s.pc := rfl

/-- write_register in the statements' own terms (R101). -/
theorem writes_writeRegister :
    Writes (.writeRegister (slotIndex q) v) s (respond .done (writeSlot s q (byteOf v))) :=
  ⟨exec_writeRegister s q v, rfl, rfl, rfl, rfl, rfl⟩

/-- write_pair in the statements' own terms (R103). -/
theorem writes_writePair :
    Writes (.writePair (pairStart p) v) s (respond .done (writePair s p (halfOf v))) :=
  ⟨exec_writePair s p v, rfl, rfl, rfl, rfl, rfl⟩

end Answered

section Creation
variable (init : Contents) (flagExt : Bool)

@[simp] theorem create_fault : (State.create init flagExt).fault = none := rfl
@[simp] theorem create_flagExt : (State.create init flagExt).flagExt = flagExt := rfl
@[simp] theorem create_response : (State.create init flagExt).response = none := rfl

/-- A created block has neither a recorded fault nor a response, so both halves of the invariant are empty. -/
theorem create_faultJustified : (State.create init flagExt).FaultJustified := by
  constructor
  · intro r h
    simp at h
  · intro c h
    simp at h

end Creation

/-- Settles O1: each read returns the field of `INIT` that creation put there. -/
theorem creationHoldsInit : Obligations.CreationHoldsInit := by
  unfold Obligations.CreationHoldsInit
  intro init flagExt
  have reads := returns_readRegister (State.create init flagExt)
  exact ⟨create_fault init flagExt, create_flagExt init flagExt, reads .A, reads .F, reads .B, reads .C, reads .D,
    reads .E, reads .H, reads .L, returns_readSp _, returns_readPc _⟩

/-- Settles O36: `State.reset` is a created block, and every created block has the invariant. -/
theorem createdBlockIsFaultJustified : Obligations.CreatedBlockIsFaultJustified :=
  ⟨create_faultJustified, create_faultJustified _ _⟩

section Slots
variable {s t : State} {q : Slot} {p p' : Pair}

/-- A byte given as a number is the byte that is written (R76). -/
@[simp] theorem byteOf_natCast_toNat (b : Byte) : byteOf b.toNat = b := ofInt_natCast_toNat b

/-- The pair a slot is in (R26). -/
def pairHolding : Slot → Pair
  | .A | .F => .AF
  | .B | .C => .BC
  | .D | .E => .DE
  | .H | .L => .HL

/-- `pairHolding` names the one pair whose slots include the given one (R26). -/
theorem mem_pair_iff : (q = pairHigh p ∨ q = pairLow p) ↔ p = pairHolding q := by
  cases q <;> cases p <;> decide

@[simp] theorem pairHolding_pairHigh (p : Pair) : pairHolding (pairHigh p) = p := (mem_pair_iff.mp (.inl rfl)).symm
@[simp] theorem pairHolding_pairLow (p : Pair) : pairHolding (pairLow p) = p := (mem_pair_iff.mp (.inr rfl)).symm

/-- A pair reads the same where its two slots do (R25). -/
theorem readPair_congr (high : readSlot t (pairHigh p) = readSlot s (pairHigh p))
    (low : readSlot t (pairLow p) = readSlot s (pairLow p)) : readPair t p = readPair s p := by
  simp only [readPair, high, low]

@[simp] theorem readPair_respond (a : Response) : readPair (respond a s) p = readPair s p :=
  readPair_congr (readSlot_respond ..) (readSlot_respond ..)

/-- A write of a slot outside a pair leaves what the pair reads as (R26). -/
theorem readPair_writeSlot_of_ne (b : Byte) (high : q ≠ pairHigh p) (low : q ≠ pairLow p) :
    readPair (writeSlot s q b) p = readPair s p := by
  apply readPair_congr
  · rw [readSlot_writeSlot, if_neg high.symm]
  · rw [readSlot_writeSlot, if_neg low.symm]

/-- A write of a pair leaves a slot that is in another pair (R26). -/
theorem readSlot_writePair_of_ne (v : Half) (h : pairHolding q ≠ p) : readSlot (writePair s p v) q = readSlot s q := by
  have high : q ≠ pairHigh p := fun hq => h (by simp [hq])
  have low : q ≠ pairLow p := fun hq => h (by simp [hq])
  rw [readSlot_writePair, if_neg low, if_neg high]

/-- A write of one pair leaves what every other pair reads as (R26). -/
theorem readPair_writePair_of_ne (v : Half) (h : p ≠ p') : readPair (writePair s p v) p' = readPair s p' :=
  readPair_congr (readSlot_writePair_of_ne v (by simpa using h.symm))
    (readSlot_writePair_of_ne v (by simpa using h.symm))

/-- Two states in which a pair reads the same answer read_pair with the same value. -/
theorem returns_readPair_of_eq (h : readPair t p = readPair s p) :
    Returns (.readPair (pairStart p)) t (readPair s p) := h ▸ returns_readPair t p

end Slots

/-- Settles O15: the index is a slot's, and that slot reads as the byte written to it. -/
theorem everySlotReadsBackItsByte : Obligations.EverySlotReadsBackItsByte := by
  unfold Obligations.EverySlotReadsBackItsByte
  intro s i b h0 h7
  obtain ⟨q, rfl⟩ := exists_slotIndex h0 h7
  refine ⟨_, writes_writeRegister s q b.toNat, ?_⟩
  simpa using returns_readRegister (respond .done (writeSlot s q (byteOf b.toNat))) q

/-- Settles O16: a slot is in `pairHolding` of it and in no other pair, so a write elsewhere leaves both slots of a pair
and with them the pair. -/
theorem pairsAreDisjoint : Obligations.PairsAreDisjoint := by
  unfold Obligations.PairsAreDisjoint
  refine ⟨fun q => ⟨pairHolding q, mem_pair_iff.mpr rfl, fun _ => mem_pair_iff.mp⟩, ?_, ?_⟩
  · intro s p p' v hne
    refine ⟨_, _, writes_writePair s p v, returns_readPair s p', returns_readPair_of_eq ?_⟩
    rw [readPair_respond, readPair_writePair_of_ne _ hne]
  · intro s q p v high low
    refine ⟨_, _, writes_writeRegister s q v, returns_readPair s p, returns_readPair_of_eq ?_⟩
    rw [readPair_respond, readPair_writeSlot_of_ne _ high low]

end Sys2Proof.Machine
end

section
/-! Proofs: which fault a request raises, by the table of R151 and the order of R153, and that no operation reads the
fault state or writes it but by faulting (R37). -/

namespace Sys2Proof.Machine

section WordFaults
variable {e : Bool} {w : Word} {i : Instr} {c : FaultCode}

/-- OP is reserved exactly where the table of R74 has no row: 0xE and 0xF, and without `FLAG_EXT` 0xC and 0xD. -/
theorem operation_eq_none :
    operation e w = none ↔ 14 ≤ w.toNat / 2 ^ 28 ∨ (12 ≤ w.toNat / 2 ^ 28 ∧ e = false) := by
  rw [← opField_toNat]
  unfold operation
  split
  case h_13 | h_14 => cases e <;> simp [*]
  case h_15 =>
    simp only [imp_false] at *
    have : 14 ≤ (opField w).toNat := by omega
    simp [this]
  all_goals simp [*]

/-- The unused fields of an existing OP, as digits of the word: the second condition of `wordFault` (R75). -/
theorem unusedFieldSet_iff (h : w.toNat / 2 ^ 28 < 14) :
    unusedFieldSet w = true ↔
      w.toNat / 2 ^ 16 % 2 ^ 6 ≠ 0 ∨ (w.toNat / 2 ^ 25 % 2 ^ 3 ≠ 0 ∧ 4 ≤ w.toNat / 2 ^ 28) ∨
      (w.toNat / 2 ^ 22 % 2 ^ 3 ≠ 0 ∧ w.toNat / 2 ^ 28 ≠ 6 ∧ w.toNat / 2 ^ 28 < 12) ∨
      (w.toNat % 2 ^ 16 ≠ 0 ∧ w.toNat / 2 ^ 28 ≠ 1 ∧ w.toNat / 2 ^ 28 ≠ 3 ∧ w.toNat / 2 ^ 28 ≠ 5 ∧
        w.toNat / 2 ^ 28 ≠ 9 ∧ w.toNat / 2 ^ 28 ≠ 11) ∨
      (256 ≤ w.toNat % 2 ^ 16 ∧ (w.toNat / 2 ^ 28 = 1 ∨ w.toNat / 2 ^ 28 = 5)) := by
  simp only [unusedFieldSet, Bool.or_eq_true, Bool.and_eq_true, Bool.not_eq_true', Bool.or_eq_false_iff, beq_iff_eq,
    beq_eq_false_iff_ne, bne_iff_ne, ← BitVec.toNat_ne_iff_ne, dataHigh_toNat, opField_toNat, idxField_toNat,
    bitField_toNat, rsvField_toNat, dataField_toNat, BitVec.ofNat_eq_ofNat, BitVec.toNat_zero]
  omega

/-- An IDX field is always a slot's index. -/
@[simp] theorem callFault_readRegister_field (x : BitVec 3) : callFault e (.readRegister x.toNat) = none := by
  revert e x
  decide

@[simp] theorem callFault_writeRegister_field (x : BitVec 3) (v : Int) :
    callFault e (.writeRegister x.toNat v) = none := callFault_readRegister_field (e := e) x

/-- An IDX field is a pair start unless it is odd. -/
@[simp] theorem callFault_readPair_field (x : BitVec 3) :
    callFault e (.readPair x.toNat) = if x.toNat % 2 = 1 then some .pairStart else none := by
  revert e x
  decide

@[simp] theorem callFault_writePair_field (x : BitVec 3) (v : Int) :
    callFault e (.writePair x.toNat v) = if x.toNat % 2 = 1 then some .pairStart else none :=
  callFault_readPair_field (e := e) x

/-- A BIT field is a flag's position unless it is below 4. -/
@[simp] theorem callFault_setFlag_field (x : BitVec 3) :
    callFault e (.setFlag x.toNat) = if x.toNat < 4 then some .flagBit else none := by
  revert e x
  decide

@[simp] theorem callFault_clearFlag_field (x : BitVec 3) :
    callFault true (.clearFlag x.toNat) = if x.toNat < 4 then some .flagBit else none :=
  callFault_setFlag_field (e := true) x

@[simp] theorem callFault_getFlag_field (x : BitVec 3) :
    callFault true (.getFlag x.toNat) = if x.toNat < 4 then some .flagBit else none :=
  callFault_setFlag_field (e := true) x

/-- The operand checks left for a word that decodes: the last two conditions of `wordFault` (R153). -/
theorem callFault_of_operation (h : operation e w = some i) :
    callFault e i =
      if (w.toNat / 2 ^ 28 = 2 ∨ w.toNat / 2 ^ 28 = 3) ∧ w.toNat / 2 ^ 25 % 2 ^ 3 % 2 = 1 then some .pairStart
      else if (w.toNat / 2 ^ 28 = 6 ∨ 12 ≤ w.toNat / 2 ^ 28) ∧ w.toNat / 2 ^ 22 % 2 ^ 3 < 4 then some .flagBit
      else none := by
  rw [← opField_toNat, ← idxField_toNat, ← bitField_toNat]
  unfold operation at h
  split at h
  case h_1 | h_2 | h_3 | h_4 | h_7 =>
    cases h
    simp [idxOperand, bitOperand, *]
  case h_13 | h_14 =>
    cases e <;> cases h
    simp [bitOperand, *]
  case h_15 => cases h
  all_goals
    cases h
    simp [callFault, *]

/-- A reserved OP is the first condition of the table (R153). -/
theorem wordFault_of_reserved (h : operation e w = none) : wordFault e w = some .illegalOp := by
  rw [wordFault, if_pos (operation_eq_none.mp h)]

/-- With an existing OP the table looks at the unused fields, then at the operands (R153). -/
theorem wordFault_of_operation (h : operation e w = some i) :
    wordFault e w = if unusedFieldSet w then some .reservedField else callFault e i := by
  have not_reserved := (operation_eq_none (e := e) (w := w)).not.mp (by simp [h])
  have unused := unusedFieldSet_iff (w := w) (by omega)
  rw [wordFault, if_neg not_reserved]
  simp only [← unused, callFault_of_operation h]

/-- A word that does not decode raises the decoder's fault (R78). -/
theorem wordFault_of_decode_error (h : decode e w = .error c) : wordFault e w = some c := by
  unfold decode at h
  cases hop : operation e w with
  | none =>
    rw [hop] at h
    cases h
    exact wordFault_of_reserved hop
  | some i =>
    simp only [hop] at h
    split at h <;> cases h
    rw [wordFault_of_operation hop, if_pos ‹_›]

/-- A word that decodes raises the fault of its operation. -/
theorem wordFault_of_decode_ok (h : decode e w = .ok i) : wordFault e w = callFault e i := by
  unfold decode at h
  cases hop : operation e w with
  | none => simp [hop] at h
  | some j =>
    simp only [hop] at h
    split at h <;> cases h
    rw [wordFault_of_operation hop, if_neg ‹_›]

/-- The same of a request in either form. -/
theorem requestFault_of_error {r : Request} (h : requestOperation e r = .error c) : requestFault e r = some c := by
  cases r with
  | word w => exact wordFault_of_decode_error h
  | call j => cases h

theorem requestFault_of_ok {r : Request} (h : requestOperation e r = .ok i) : requestFault e r = callFault e i := by
  cases r with
  | word w => exact wordFault_of_decode_ok h
  | call j =>
    cases h
    rfl

end WordFaults

section Contract
variable {e : Bool} {s t : State} {i : Instr} {k p b : Int}

/-- An index that keeps the contract is a slot's. -/
theorem slot_of_contract (h : callFault e (.readRegister k) = none) : ∃ q, k = slotIndex q := by
  by_cases hk : 0 ≤ k ∧ k ≤ 7
  · obtain ⟨q, hq⟩ := exists_slotIndex hk.1 hk.2
    exact ⟨q, hq.symm⟩
  · simp [callFault, hk] at h

/-- A select that keeps the contract is a pair's start. -/
theorem pair_of_contract (h : callFault e (.readPair p) = none) : ∃ pair, p = pairStart pair := by
  cases hp : pairOf p with
  | error c => simp [pairOf_error hp e] at h
  | ok pair => exact ⟨pair, pairOf_eq_ok.mp hp⟩

/-- A bit position that keeps the contract is a flag's. -/
theorem flag_of_contract (h : callFault e (.setFlag b) = none) : ∃ f, b = flagPosition f := by
  cases hb : flagOf b with
  | none =>
    have := flagOf_eq_none.mp hb
    rw [callFault, if_neg (by omega)] at h
    cases h
  | some f => exact ⟨f, flagOf_eq_some.mp hb⟩

/-- An extension operation that keeps the contract is on a block with the extension, and its bit position is a flag's. -/
theorem extension_of_contract (h : callFault e (.clearFlag b) = none) : e = true ∧ ∃ f, b = flagPosition f := by
  cases e with
  | false => cases h
  | true => exact ⟨rfl, flag_of_contract (e := true) h⟩

/-- An operation that keeps the contract neither reads the fault state nor writes it: on the same block with another
fault state it answers the same with that fault state (R37). -/
theorem exec_with_fault (f : Option FaultRecord) (hc : callFault s.flagExt i = none) (h : exec i s = .next t) :
    exec i { s with fault := f } = .next { t with fault := f } := by
  cases i
  case readRegister k =>
    obtain ⟨q, rfl⟩ := slot_of_contract hc
    cases (exec_readRegister s q).symm.trans h
    exact exec_readRegister _ q
  case writeRegister k v =>
    obtain ⟨q, rfl⟩ := slot_of_contract (e := s.flagExt) hc
    cases (exec_writeRegister s q v).symm.trans h
    exact exec_writeRegister _ q v
  case readPair p =>
    obtain ⟨pair, rfl⟩ := pair_of_contract hc
    cases (exec_readPair s pair).symm.trans h
    exact exec_readPair _ pair
  case writePair p v =>
    obtain ⟨pair, rfl⟩ := pair_of_contract (e := s.flagExt) hc
    cases (exec_writePair s pair v).symm.trans h
    exact exec_writePair _ pair v
  case setFlag b =>
    obtain ⟨flag, rfl⟩ := flag_of_contract hc
    cases (exec_setFlag s flag).symm.trans h
    exact exec_setFlag _ flag
  case clearFlag b =>
    obtain ⟨he, flag, rfl⟩ := extension_of_contract hc
    cases (exec_clearFlag s flag he).symm.trans h
    exact exec_clearFlag _ flag he
  case getFlag b =>
    obtain ⟨he, flag, rfl⟩ := extension_of_contract (b := b) hc
    cases (exec_getFlag s flag he).symm.trans h
    exact exec_getFlag _ flag he
  case readFlags | writeFlags | resetFlag | readSp | writeSp | readPc | writePc => cases h; rfl

/-- The response of an operation does not depend on the fault state, and where the contract is kept the rest of the next
state does not either. -/
theorem exec_blind_to_fault (i : Instr) (s : State) (f : Option FaultRecord) :
    ∃ t t', exec i s = .next t ∧ exec i { s with fault := f } = .next t' ∧ t'.response = t.response ∧
      (callFault s.flagExt i = none → t' = { t with fault := f }) := by
  cases hc : callFault s.flagExt i with
  | none =>
    obtain ⟨t, ht, -⟩ := exec_effect i s
    exact ⟨t, _, ht, exec_with_fault f hc ht, rfl, fun _ => rfl⟩
  | some c =>
    have other : exec i { s with fault := f } = raiseFault c (.call i) { s with fault := f } := exec_of_callFault hc
    exact ⟨_, _, exec_of_callFault hc, other, rfl, nofun⟩

end Contract

section FaultState
variable {s t : State} {i : Instr}

/-- An operation leaves the fault state and answers no fault, or records a fault and answers it (R37, R152). -/
theorem Effect.fault_kept_or_recorded (h : Effect i s t) :
    (t.fault = s.fault ∧ ∀ c, t.response ≠ some (.fault c)) ∨
      ∃ r, t.fault = some r ∧ t.response = some (.fault r.code) := by
  cases h with
  | fault c => exact .inr ⟨⟨c, requestWord (.call i)⟩, by simp⟩
  | read | slot | pair | sp | pc => exact .inl (by simp)

/-- No operation clears the fault state (R37). -/
theorem Effect.fault_ne_none (h : Effect i s t) (hs : s.fault ≠ none) : t.fault ≠ none := by
  rcases h.fault_kept_or_recorded with ⟨kept, -⟩ | ⟨r, recorded, -⟩
  · rwa [kept]
  · simp [recorded]

/-- Only a fault-free block steps (R152(a)). -/
theorem StepEffect.fault_eq_none (h : StepEffect s t) : s.fault = none := by
  cases h <;> assumption

/-- At a fault-free block a request that the table gives a fault to raises that fault, in the decoder or in the
operation, and is taken. -/
theorem step_of_requestFault {c : FaultCode} {r : Request} {rest : List Offer} (hf : s.fault = none)
    (hq : s.queue = .single r :: rest) (h : requestFault s.flagExt r = some c) :
    ∃ k, step s = raiseFault c k { s with queue := rest } := by
  cases hr : requestOperation s.flagExt r with
  | error c' =>
    rw [requestFault_of_error hr] at h
    cases h
    exact ⟨r, step_bad hf hq hr⟩
  | ok i =>
    rw [requestFault_of_ok hr] at h
    exact ⟨.call i, (step_run hf hq hr).trans (exec_of_callFault h)⟩

end FaultState

/-- Settles O27: what an operation does to the fault state is read off its effect, a faulting request is
`step_of_requestFault`, and that no operation looks at the fault state is `exec_blind_to_fault`. -/
theorem faultIsRecordedAndNeverCleared : Obligations.FaultIsRecordedAndNeverCleared := by
  unfold Obligations.FaultIsRecordedAndNeverCleared
  refine ⟨create_fault, fun i s t h => (effect_of_exec h).fault_kept_or_recorded,
    fun i s t h => (effect_of_exec h).fault_ne_none, fun s t h => (stepEffect_of_step h).fault_eq_none, ?_,
    exec_blind_to_fault⟩
  intro s r rest c hf hq hc
  obtain ⟨k, hk⟩ := step_of_requestFault hf hq hc
  exact ⟨_, _, hk, faultState_fault ..⟩

end Sys2Proof.Machine
end

section
/-! Proofs: the family 20_memory.md. A word of an operation decodes to it, an operation that keeps the contract leaves
in every bit what it writes there, and so a sequence leaves the most recent write (R59); the slot view and the pair view
are one storage (R54). -/

namespace Sys2Proof.Laws.EncodesCleanly

/-- The word of every operation has its row's OP and no unused field set (R74, R75). -/
theorem statement : ∀ i, Statement i
  | .readRegister i => readRegister i
  | .writeRegister i v => writeRegister i v
  | .readPair p => readPair p
  | .writePair p v => writePair p v
  | .readFlags => readFlags
  | .writeFlags v => writeFlags v
  | .setFlag b => setFlag b
  | .resetFlag => resetFlag
  | .readSp => readSp
  | .writeSp v => writeSp v
  | .readPc => readPc
  | .writePc v => writePc v
  | .clearFlag b => clearFlag b
  | .getFlag b => getFlag b

end Sys2Proof.Laws.EncodesCleanly

namespace Sys2Proof.Machine

section WordOfOperation
variable {e : Bool} {i : Instr}

/-- An operand that fits its field is the number of a field. -/
theorem exists_field {n : Nat} {v : Int} (h : fitsField n v = true) : ∃ x : BitVec n, v = x.toNat :=
  ⟨BitVec.ofInt n v, (ofInt_toNat_of_fits h).symm⟩

/-- The OP of an operation's word selects that operation, and each field reads as its operand (R74, R76). -/
theorem operation_encode (wf : i.wf = true) (ext : i.needsFlagExt = true → e = true) :
    operation e (encode i) = some i := by
  cases i
  case readFlags | resetFlag | readSp | readPc => simp [operation, encode]
  case writeRegister i v =>
    obtain ⟨fitsIdx, fitsData⟩ := Bool.and_eq_true_iff.mp wf
    obtain ⟨idx, rfl⟩ := exists_field fitsIdx
    obtain ⟨data, rfl⟩ := exists_field fitsData
    simp [operation, encode, idxOperand, byteOperand]
  case writePair p v =>
    obtain ⟨fitsIdx, fitsData⟩ := Bool.and_eq_true_iff.mp wf
    obtain ⟨idx, rfl⟩ := exists_field fitsIdx
    obtain ⟨data, rfl⟩ := exists_field fitsData
    simp [operation, encode, idxOperand, halfOperand]
  case clearFlag | getFlag =>
    obtain ⟨bit, rfl⟩ := exists_field wf
    simp [operation, encode, bitOperand, ext rfl]
  case readRegister | readPair | writeFlags | setFlag | writeSp | writePc =>
    obtain ⟨x, rfl⟩ := exists_field wf
    simp [operation, encode, idxOperand, bitOperand, byteOperand, halfOperand]

/-- Decoding the word of a well-formed operation gives the operation back, on a block that has it (R78). -/
theorem decode_encode (wf : i.wf = true) (ext : i.needsFlagExt = true → e = true) : decode e (encode i) = .ok i := by
  obtain ⟨-, clean⟩ := Laws.EncodesCleanly.statement i
  simp [decode, operation_encode wf ext, clean]

/-- An extension operation keeps the contract only on a block with the extension (R175). -/
theorem flagExt_of_contract (h : callFault e i = none) (ext : i.needsFlagExt = true) : e = true := by
  cases i
  case clearFlag b => exact (extension_of_contract (b := b) h).1
  case getFlag b => exact (extension_of_contract (b := b) h).1
  all_goals cases ext

/-- A step at the word of a contract-keeping operation performs that operation. -/
theorem step_encode {s : State} {rest : List Offer} (hf : s.fault = none) (wf : i.wf = true)
    (hc : callFault s.flagExt i = none) (hq : s.queue = .single (.word (encode i)) :: rest) :
    step s = exec i { s with queue := rest } :=
  step_run hf hq (decode_encode wf (flagExt_of_contract hc))

end WordOfOperation

section LatestWrite
variable {s t u : State} {i : Instr} {ops : List Instr} {q : Slot} {p : Pair} {k : Nat}

/-- Every bit of every slot, SP and PC of `t` hold what the most recent of `ops` to write them wrote, or what they held
in `s` (R59). -/
structure HoldsLatest (ops : List Instr) (s t : State) : Prop where
  bit : ∀ q k, k < 8 → (readSlot t q).getLsbD k = lastWritten (bitWritten q k) ops ((readSlot s q).getLsbD k)
  sp : t.sp = lastWritten spWritten ops s.sp
  pc : t.pc = lastWritten pcWritten ops s.pc

/-- Of no operation there is no write. -/
theorem HoldsLatest.nil : HoldsLatest [] s s := ⟨fun _ _ _ => rfl, rfl, rfl⟩

/-- What the first operation writes is what the others find. -/
theorem HoldsLatest.cons (first : HoldsLatest [i] s t) (others : HoldsLatest ops t u) :
    HoldsLatest (i :: ops) s u where
  bit q k hk := by rw [others.bit q k hk, first.bit q k hk]; rfl
  sp := by rw [others.sp, first.sp]; rfl
  pc := by rw [others.pc, first.pc]; rfl

theorem getLsbD_highByte (v : Half) (hk : k < 8) : (highByte v).getLsbD k = v.getLsbD (k + 8) := by
  simp [highByte, hk, Nat.add_comm]

theorem getLsbD_lowByte (v : Half) (hk : k < 8) : (lowByte v).getLsbD k = v.getLsbD k := by
  simp [lowByte, hk]

/-- A select is the index of the high slot of its pair and of no other (R25). -/
theorem pairStart_eq_slotIndex : pairStart p = slotIndex q ↔ q = pairHigh p := by
  rw [← slotIndex_pairHigh, slotIndex_inj, eq_comm]

/-- The next number is the index of the low slot of its pair and of no other (R25). -/
theorem pairStart_succ_eq_slotIndex : pairStart p + 1 = slotIndex q ↔ q = pairLow p := by
  rw [← slotIndex_pairLow, slotIndex_inj, eq_comm]

/-- An operation that writes no bit, and neither SP nor PC, holds what was there. -/
theorem holdsLatest_read (a : Response) (bits : ∀ q k, bitWritten q k i = none) (sp : spWritten i = none)
    (pc : pcWritten i = none) : HoldsLatest [i] s (respond a s) where
  bit q k _ := by simp [lastWritten, bits]
  sp := by simp [lastWritten, sp]
  pc := by simp [lastWritten, pc]

/-- An operation that replaces F by a byte of the bits it writes there, and writes nothing else, holds its writes. -/
theorem holdsLatest_writeF {b : Byte}
    (bits : ∀ k < 8, b.getLsbD k = (bitWritten .F k i).getD ((readSlot s .F).getLsbD k))
    (others : ∀ q k, q ≠ .F → bitWritten q k i = none) (sp : spWritten i = none) (pc : pcWritten i = none) :
    HoldsLatest [i] s (respond .done (writeSlot s .F b)) where
  bit q k hk := by
    by_cases hq : q = .F
    · subst hq
      simpa [lastWritten] using bits k hk
    · simp [lastWritten, readSlot_writeSlot, hq, others q k hq]
  sp := by simp [lastWritten, sp]
  pc := by simp [lastWritten, pc]

/-- The same of an operation that writes the one bit of F at a flag's position. -/
theorem holdsLatest_writeFlag {b : Byte} {f : FlagBit} {x : Bool}
    (written : ∀ q k, bitWritten q k i = if q = .F ∧ (flagPosition f : Int) = k then some x else none)
    (bits : ∀ k < 8, b.getLsbD k = if k = flagPosition f then x else (readSlot s .F).getLsbD k)
    (sp : spWritten i = none) (pc : pcWritten i = none) :
    HoldsLatest [i] s (respond .done (writeSlot s .F b)) := by
  refine holdsLatest_writeF (fun k hk => ?_) (fun q k hq => ?_) sp pc
  · simp only [bits k hk, written, true_and, Nat.cast_inj, eq_comm (a := k)]
    split <;> rfl
  · simp [written, hq]

/-- write_register writes the eight bits of its slot (R101). -/
theorem holdsLatest_writeRegister (v : Int) :
    HoldsLatest [.writeRegister (slotIndex q) v] s (respond .done (writeSlot s q (byteOf v))) where
  bit r k _ := by
    by_cases hr : r = q
    · simp [lastWritten, bitWritten, hr, byteOf]
    · simp [lastWritten, bitWritten, readSlot_writeSlot, slotIndex_inj, hr, Ne.symm hr]
  sp := rfl
  pc := rfl

/-- write_pair writes the sixteen bits of its two slots, the high eight in the high slot (R103). -/
theorem holdsLatest_writePair (v : Int) :
    HoldsLatest [.writePair (pairStart p) v] s (respond .done (writePair s p (halfOf v))) where
  bit r k hk := by
    simp only [lastWritten, bitWritten, pairStart_eq_slotIndex, pairStart_succ_eq_slotIndex, readSlot_respond,
      readSlot_writePair]
    by_cases high : r = pairHigh p
    · simp [high, pairHigh_ne_pairLow, getLsbD_highByte _ hk, halfOf]
    · by_cases low : r = pairLow p
      · simp [low, (pairHigh_ne_pairLow _).symm, getLsbD_lowByte _ hk, halfOf]
      · simp [high, low]
  sp := rfl
  pc := rfl

/-- write_sp writes SP (R141). -/
theorem holdsLatest_writeSp (v : Int) : HoldsLatest [.writeSp v] s (respond .done (writeSp s (halfOf v))) where
  bit q k _ := by simp [lastWritten, bitWritten]
  sp := rfl
  pc := rfl

/-- write_pc writes PC (R143). -/
theorem holdsLatest_writePc (v : Int) : HoldsLatest [.writePc v] s (respond .done (writePc s (halfOf v))) where
  bit q k _ := by simp [lastWritten, bitWritten]
  sp := rfl
  pc := rfl

/-- An operation that keeps the contract answers a next state with the fault state as it was, and holds its writes
(R59, R175). -/
theorem exec_holdsLatest (hc : callFault s.flagExt i = none) :
    ∃ t, exec i s = .next t ∧ t.fault = s.fault ∧ HoldsLatest [i] s t := by
  cases i
  case readRegister k =>
    obtain ⟨q, rfl⟩ := slot_of_contract hc
    exact ⟨_, exec_readRegister s q, rfl, holdsLatest_read _ (fun _ _ => rfl) rfl rfl⟩
  case writeRegister k v =>
    obtain ⟨q, rfl⟩ := slot_of_contract (e := s.flagExt) hc
    exact ⟨_, exec_writeRegister s q v, rfl, holdsLatest_writeRegister v⟩
  case readPair p =>
    obtain ⟨pair, rfl⟩ := pair_of_contract hc
    exact ⟨_, exec_readPair s pair, rfl, holdsLatest_read _ (fun _ _ => rfl) rfl rfl⟩
  case writePair p v =>
    obtain ⟨pair, rfl⟩ := pair_of_contract (e := s.flagExt) hc
    exact ⟨_, exec_writePair s pair v, rfl, holdsLatest_writePair v⟩
  case readFlags | readSp | readPc => exact ⟨_, rfl, rfl, holdsLatest_read _ (fun _ _ => rfl) rfl rfl⟩
  case writeFlags v =>
    exact ⟨_, rfl, rfl, holdsLatest_writeF (fun _ _ => rfl) (fun _ _ hq => if_neg hq) rfl rfl⟩
  case setFlag b =>
    obtain ⟨flag, rfl⟩ := flag_of_contract hc
    exact ⟨_, exec_setFlag s flag, rfl, holdsLatest_writeFlag (fun _ _ => rfl) (getLsbD_setFlagIn _ flag) rfl rfl⟩
  case resetFlag =>
    refine ⟨_, rfl, rfl, holdsLatest_writeF (fun k hk => ?_) (fun q k hq => if_neg hq) rfl rfl⟩
    simp [bitWritten]
  case writeSp v => exact ⟨_, rfl, rfl, holdsLatest_writeSp v⟩
  case writePc v => exact ⟨_, rfl, rfl, holdsLatest_writePc v⟩
  case clearFlag b =>
    obtain ⟨he, flag, rfl⟩ := extension_of_contract hc
    exact ⟨_, exec_clearFlag s flag he, rfl,
      holdsLatest_writeFlag (fun _ _ => rfl) (getLsbD_clearFlagIn _ flag) rfl rfl⟩
  case getFlag b =>
    obtain ⟨he, flag, rfl⟩ := extension_of_contract (b := b) hc
    exact ⟨_, exec_getFlag s flag he, rfl, holdsLatest_read _ (fun _ _ => rfl) rfl rfl⟩

/-- What the port holds is no register: with another port a block holds the same writes. -/
theorem HoldsLatest.of_queue {queue : List Offer} (h : HoldsLatest ops { s with queue := queue } t) :
    HoldsLatest ops s t := ⟨h.bit, h.sp, h.pc⟩

/-- One step at the word of a contract-keeping operation takes exactly that word and holds its writes. -/
theorem step_holdsLatest {rest : List Offer} (hf : s.fault = none) (wf : i.wf = true)
    (hc : callFault s.flagExt i = none) (hq : s.queue = .single (.word (encode i)) :: rest) :
    ∃ t, step s = .next t ∧ t.fault = none ∧ t.queue = rest ∧ t.flagExt = s.flagExt ∧ HoldsLatest [i] s t := by
  obtain ⟨t, ht, fault, held⟩ := exec_holdsLatest (s := { s with queue := rest }) hc
  have effect := effect_of_exec ht
  exact ⟨t, (step_encode hf wf hc hq).trans ht, fault.trans hf, effect.queue_eq, effect.flagExt_eq, held.of_queue⟩

/-- A run over the words of contract-keeping operations is safe, takes exactly those words, and leaves the most recent
writes: induction over the operations, one step each. -/
theorem run_holdsLatest {rest : List Offer} (hf : s.fault = none)
    (hc : ∀ i ∈ ops, i.wf = true ∧ callFault s.flagExt i = none)
    (hq : s.queue = ops.map (fun i => Offer.single (.word (encode i))) ++ rest) :
    ∃ t, SafeRun ops.length s t ∧ t.queue = rest ∧ t.flagExt = s.flagExt ∧ HoldsLatest ops s t := by
  induction ops generalizing s with
  | nil => exact ⟨s, ⟨core_run_zero, hf⟩, hq, rfl, .nil⟩
  | cons i ops ih =>
    obtain ⟨⟨wf, contract⟩, others⟩ := List.forall_mem_cons.mp hc
    obtain ⟨t, ht, fault, queue, ext, first⟩ := step_holdsLatest hf wf contract hq
    obtain ⟨u, run, taken, ext', later⟩ := ih fault (ext ▸ others) queue
    exact ⟨u, safeRun_succ ht run, taken, ext'.trans ext, first.cons later⟩

end LatestWrite

/-- Settles O37: `run_holdsLatest`, an induction over the operations whose one step is `step_holdsLatest`. -/
theorem latestWriteIsWhatTheBlockHolds : Obligations.LatestWriteIsWhatTheBlockHolds := by
  unfold Obligations.LatestWriteIsWhatTheBlockHolds
  refine ⟨fun _ _ => rfl, fun s ops rest hf hc hq => ?_⟩
  obtain ⟨t, run, queue, ext, held⟩ := run_holdsLatest hf hc hq
  exact ⟨t, run, queue, ext, held.bit, held.sp, held.pc⟩

section Views
variable (s : State) (p : Pair)

@[simp] theorem halfOf_natCast_toNat (v : Half) : halfOf v.toNat = v := ofInt_natCast_toNat v

/-- A pair's two bytes are read back from their composition (R52). -/
@[simp] theorem highByte_append (b c : Byte) : highByte (b ++ c) = b :=
  BitVec.extractLsb'_append_eq_left

@[simp] theorem lowByte_append (b c : Byte) : lowByte (b ++ c) = c :=
  BitVec.extractLsb'_append_eq_right

/-- A pair start is the start of one of the pairs (R71). -/
theorem exists_pairStart {p : Int} (h : IsPairStart p) : ∃ pair, p = pairStart pair := by
  rcases h with rfl | rfl | rfl | rfl
  exacts [⟨.AF, rfl⟩, ⟨.BC, rfl⟩, ⟨.DE, rfl⟩, ⟨.HL, rfl⟩]

/-- read_register of a pair's two slots, named from the pair's start (R25, R100). -/
theorem returns_readRegister_high :
    Returns (.readRegister (pairStart p)) s ((readSlot s (pairHigh p)).setWidth 16) :=
  slotIndex_pairHigh p ▸ returns_readRegister s (pairHigh p)

theorem returns_readRegister_low :
    Returns (.readRegister (pairStart p + 1)) s ((readSlot s (pairLow p)).setWidth 16) :=
  slotIndex_pairLow p ▸ returns_readRegister s (pairLow p)

/-- write_register of a pair's two slots, named from the pair's start (R25, R101). -/
theorem writes_writeRegister_high (b : Byte) :
    Writes (.writeRegister (pairStart p) b.toNat) s (respond .done (writeSlot s (pairHigh p) b)) := by
  simpa using writes_writeRegister s (pairHigh p) b.toNat

theorem writes_writeRegister_low (b : Byte) :
    Writes (.writeRegister (pairStart p + 1) b.toNat) s (respond .done (writeSlot s (pairLow p) b)) := by
  simpa using writes_writeRegister s (pairLow p) b.toNat

/-- write_pair of a value given by its bits (R103). -/
theorem writes_writePair_half (v : Half) :
    Writes (.writePair (pairStart p) v.toNat) s (respond .done (writePair s p v)) := by
  simpa using writes_writePair s p v.toNat

/-- A write of one slot of a pair is seen in that half of the pair (R54). -/
@[simp] theorem readPair_writeSlot_high (b : Byte) :
    readPair (writeSlot s (pairHigh p) b) p = b ++ readSlot s (pairLow p) := by
  simp [readPair, readSlot_writeSlot, (pairHigh_ne_pairLow _).symm, compose]

@[simp] theorem readPair_writeSlot_low (b : Byte) :
    readPair (writeSlot s (pairLow p) b) p = readSlot s (pairHigh p) ++ b := by
  simp [readPair, readSlot_writeSlot, pairHigh_ne_pairLow, compose]

/-- A write of a pair is seen in both its slots (R54). -/
@[simp] theorem readSlot_writePair_high (v : Half) : readSlot (writePair s p v) (pairHigh p) = highByte v := by
  simp [readSlot_writePair, pairHigh_ne_pairLow]

@[simp] theorem readSlot_writePair_low (v : Half) : readSlot (writePair s p v) (pairLow p) = lowByte v := by
  simp [readSlot_writePair]

/-- A pair reads back the value last written to it (R104). -/
@[simp] theorem readPair_writePair (v : Half) : readPair (writePair s p v) p = v := by
  simp [readPair, compose, highByte, lowByte, BitVec.extractLsb'_append_extractLsb' (w := 8) (len := 8)]

end Views

/-- Settles O17: both views read the pair's two slots, so a write through either is read through the other. -/
theorem slotAndPairViewsAgree : Obligations.SlotAndPairViewsAgree := by
  unfold Obligations.SlotAndPairViewsAgree
  intro s p hp
  obtain ⟨pair, rfl⟩ := exists_pairStart hp
  refine ⟨readSlot s (pairHigh pair), readSlot s (pairLow pair), returns_readRegister_high s pair,
    returns_readRegister_low s pair, returns_readPair s pair, fun b => ?_, fun b => ?_, fun b c => ?_⟩
  · refine ⟨_, writes_writeRegister_high s pair b, ?_⟩
    simpa using returns_readPair (respond .done (writeSlot s (pairHigh pair) b)) pair
  · refine ⟨_, writes_writeRegister_low s pair b, ?_⟩
    simpa using returns_readPair (respond .done (writeSlot s (pairLow pair) b)) pair
  · refine ⟨_, writes_writePair_half s pair (b ++ c), ?_, ?_, ?_⟩
    · simpa using returns_readRegister_high (respond .done (writePair s pair (b ++ c))) pair
    · simpa using returns_readRegister_low (respond .done (writePair s pair (b ++ c))) pair
    · simpa using returns_readPair (respond .done (writePair s pair (b ++ c))) pair

/-- Settles O33: the step at a port with overlapping requests at its head is `step_overlap`. -/
theorem overlappingRequestsAreRefused : Obligations.OverlappingRequestsAreRefused := by
  unfold Obligations.OverlappingRequestsAreRefused
  intro s r r' rest
  exact step_overlap

end Sys2Proof.Machine
end

section
/-! Proofs: the family 30_encoding.md. A word with an existing OP decodes exactly when no unused field is set (R75); a
line of the assembler gives the word of its own operation (R81); and the text of a line is read back, word by word. -/

namespace Sys2Proof.Machine

section UnusedFields
variable {e : Bool} {w : Word} {i : Instr}

/-- With an existing OP the decoder looks at the unused fields alone (R78). -/
theorem decode_of_operation (h : operation e w = some i) :
    decode e w = if unusedFieldSet w then .error .reservedField else .ok i := by
  simp only [decode, h]

/-- An OP that has a row in the table of R74 selects an operation. -/
theorem exists_operation (h : w.toNat / 2 ^ 28 < 12 ∨ (e = true ∧ w.toNat / 2 ^ 28 < 14)) :
    ∃ i, operation e w = some i := by
  refine Option.ne_none_iff_exists'.mp (operation_eq_none.not.mpr ?_)
  rcases h with h | ⟨rfl, h⟩
  · omega
  · simpa using h

/-- The unused fields by the "fields used" column of R74, its rows listed by their OPs. -/
theorem unusedFieldSet_iff_mem (h : w.toNat / 2 ^ 28 < 14) :
    (w.toNat / 2 ^ 16 % 2 ^ 6 ≠ 0 ∨
      (w.toNat / 2 ^ 25 % 2 ^ 3 ≠ 0 ∧ w.toNat / 2 ^ 28 ∉ [0x0, 0x1, 0x2, 0x3]) ∨
      (w.toNat / 2 ^ 22 % 2 ^ 3 ≠ 0 ∧ w.toNat / 2 ^ 28 ∉ [0x6, 0xC, 0xD]) ∨
      (w.toNat % 2 ^ 16 ≠ 0 ∧ w.toNat / 2 ^ 28 ∉ [0x1, 0x3, 0x5, 0x9, 0xB]) ∨
      (w.toNat / 2 ^ 8 % 2 ^ 8 ≠ 0 ∧ w.toNat / 2 ^ 28 ∈ [0x1, 0x5])) ↔ unusedFieldSet w = true := by
  rw [unusedFieldSet_iff h]
  simp only [List.mem_cons, List.not_mem_nil, or_false]
  refine or_congr Iff.rfl (or_congr (and_congr_right' ?idx) (or_congr (and_congr_right' ?bit)
    (or_congr (and_congr_right' ?data) (and_congr_left' ?dataHigh)))) <;> omega

end UnusedFields

/-- Settles O30: an existing OP selects an operation, and what is left of the decoder is `unusedFieldSet`, in the digits
of `unusedFieldSet_iff_mem`. -/
theorem unusedFieldsMustBeZero : Obligations.UnusedFieldsMustBeZero := by
  unfold Obligations.UnusedFieldsMustBeZero
  intro e w h
  obtain ⟨i, hi⟩ := exists_operation h
  rw [unusedFieldSet_iff_mem (by omega), decode_of_operation hi]
  exact ⟨fun set => if_pos set, fun clean => ⟨i, if_neg clean⟩⟩

/-- Settles O31: the decoder run on each of the twelve words. -/
theorem sampleWordsDecode : Obligations.SampleWordsDecode := by
  unfold Obligations.SampleWordsDecode
  decide

section AssembledWords
variable {e : Bool} {line : AsmLine} {i : Instr} {w w' : Word} {k n : Nat}

/-- The numbers of names that the statements write out are the model's (R70 to R72). -/
theorem slotIndex_eq_slotNumber (q : Slot) : slotIndex q = slotNumber q := by cases q <;> rfl
theorem pairStart_eq_pairNumber (p : Pair) : pairStart p = pairNumber p := by cases p <;> rfl
theorem flagPosition_eq_flagNumber (f : FlagBit) : (flagPosition f : Int) = flagNumber f := by cases f <;> rfl

/-- The number of a name fits its field. -/
theorem fitsField_slotNumber (q : Slot) : fitsField 3 (slotNumber q) = true := by cases q <;> rfl
theorem fitsField_pairNumber (p : Pair) : fitsField 3 (pairNumber p) = true := by cases p <;> rfl
theorem fitsField_flagNumber (f : FlagBit) : fitsField 3 (flagNumber f) = true := by cases f <;> rfl

/-- An immediate fits a field when it is below the field's range. -/
theorem fitsField_natCast : fitsField k (n : Int) = true ↔ n < 2 ^ k := by
  rw [fitsField_iff]
  omega

theorem fitsField_of_le (h : n ≤ 2 ^ k - 1) : fitsField k (n : Int) = true :=
  fitsField_natCast.mpr (Nat.lt_of_le_pred (Nat.two_pow_pos k) h)

theorem immediate_eq_some : immediate k n w = some w' ↔ n < 2 ^ k ∧ w = w' := by simp [immediate]

theorem immediate_eq_none : immediate k n w = none ↔ 2 ^ k ≤ n := by simp [immediate]

/-- A line of an operation gives that operation's word where a word spells it and the block has it, and is refused
elsewhere (R81). -/
theorem assemble_of_lineOperation (h : lineOperation line = some i) :
    assemble e line = if i.wf = true ∧ (i.needsFlagExt = true → e = true) then some (encode i) else none := by
  cases line <;> cases h
  case readRegister q => simp [assemble, Instr.wf, Instr.needsFlagExt, slotIndex_eq_slotNumber, fitsField_slotNumber]
  case writeRegister q n =>
    simp [assemble, immediate, Instr.wf, Instr.needsFlagExt, slotIndex_eq_slotNumber, fitsField_slotNumber,
      fitsField_natCast]
  case readPair p => simp [assemble, Instr.wf, Instr.needsFlagExt, pairStart_eq_pairNumber, fitsField_pairNumber]
  case writePair p n =>
    simp [assemble, immediate, Instr.wf, Instr.needsFlagExt, pairStart_eq_pairNumber, fitsField_pairNumber,
      fitsField_natCast]
  case setFlag f | clearFlag f | getFlag f =>
    simp [assemble, Instr.wf, Instr.needsFlagExt, flagPosition_eq_flagNumber, fitsField_flagNumber]
  case writeFlags n | writeSp n | writePc n =>
    simp [assemble, immediate, Instr.wf, Instr.needsFlagExt, fitsField_natCast]
  case readFlags | resetFlag | readSp | readPc => simp [assemble, Instr.wf, Instr.needsFlagExt]

/-- The operation of a line keeps the caller's contract on a block that has it: its operands are names (R175). -/
theorem callFault_of_lineOperation (h : lineOperation line = some i) (ext : i.needsFlagExt = true → e = true) :
    callFault e i = none := by
  cases line <;> cases h
  case readRegister q | writeRegister q _ => cases q <;> rfl
  case readPair p | writePair p _ => cases p <;> rfl
  case setFlag f => cases f <;> rfl
  case clearFlag f | getFlag f =>
    cases ext rfl
    cases f <;> rfl
  all_goals rfl

/-- The word of a line of an operation decodes to that operation, which keeps the contract. -/
theorem decode_of_assemble (h : lineOperation line = some i) (hw : assemble e line = some w) :
    decode e w = .ok i ∧ callFault e i = none := by
  rw [assemble_of_lineOperation h, Option.ite_none_right_eq_some] at hw
  obtain ⟨⟨wf, ext⟩, ⟨⟩⟩ := hw
  exact ⟨decode_encode wf ext, callFault_of_lineOperation h ext⟩

/-- `.word` is the one line of no operation. -/
theorem lineOperation_eq_none : lineOperation line = none ↔ ∃ n, line = .word n := by
  cases line <;> simp [lineOperation]

/-- `.word` gives the word it names. -/
theorem toNat_of_assemble_word (h : assemble e (.word n) = some w) : w.toNat = n := by
  obtain ⟨small, rfl⟩ := immediate_eq_some.mp h
  rw [BitVec.toNat_ofNat, Nat.mod_eq_of_lt small]

end AssembledWords

/-- Settles O38: a line of an operation is `decode_of_assemble`, the one other line is `.word`, and the refused lines
are read off the assembler's cases. -/
theorem assembledLinesKeepTheContract : Obligations.AssembledLinesKeepTheContract := by
  unfold Obligations.AssembledLinesKeepTheContract
  refine ⟨fun e line w hw => ?_, fun e line => ?_⟩
  · cases h : lineOperation line with
    | some i => exact .inl ⟨i, rfl, decode_of_assemble h hw⟩
    | none =>
      obtain ⟨n, rfl⟩ := lineOperation_eq_none.mp h
      exact .inr ⟨n, rfl, toNat_of_assemble_word hw⟩
  · cases line
    case writeRegister | writePair | writeFlags | writeSp | writePc | word =>
      simp [assemble, immediate_eq_none, Nat.lt_iff_add_one_le]
    case clearFlag | getFlag | readRegister | readPair | readFlags | setFlag | resetFlag | readSp | readPc =>
      simp [assemble]

section Texts
variable {α : Type} {e : Bool} {m x y imm text : String} {line : AsmLine} {i : Instr} {w : Word} {n : Nat}

/-- A text that is one word of a line: some characters, none of them a space or a comma. -/
structure IsWord (x : String) : Prop where
  chars : ∀ c ∈ x.toList, IsWordChar c
  nonempty : x.toList ≠ []

/-- The same as a check, to be run on a text that is written out. -/
def wordCheck (x : String) : Bool := x.toList.all (fun c => c ≠ ' ' ∧ c ≠ ',') && !x.toList.isEmpty

theorem isWord_of_check (h : wordCheck x = true) : IsWord x := by
  obtain ⟨chars, nonempty⟩ := Bool.and_eq_true_iff.mp h
  exact ⟨by simpa [IsWordChar] using chars, by simpa using nonempty⟩

/-- An operand's text: one word, which the reader of such operands reads as the value. -/
structure Reads (read : List Char → Option α) (x : String) (a : α) : Prop where
  word : IsWord x
  value : read x.toList = some a

theorem reads_slotName (q : Slot) : Reads namedSlot (slotName q) q :=
  ⟨isWord_of_check (by cases q <;> rfl), namedSlot_slotName q⟩

theorem reads_pairName (p : Pair) : Reads namedPair (pairName p) p :=
  ⟨isWord_of_check (by cases p <;> rfl), namedPair_pairName p⟩

theorem reads_flagName (f : FlagBit) : Reads namedFlag (flagName f) f :=
  ⟨isWord_of_check (by cases f <;> rfl), namedFlag_flagName f⟩

theorem toList_toString (n : Nat) : (toString n).toList = Nat.toDigits 10 n := by
  simp [toString, Nat.repr]

/-- An immediate reads back in either form (R81). -/
theorem reads_immediate (h : IsImmediate n imm) : Reads number imm n := by
  rcases h with rfl | rfl
  · have list := toList_toString n
    exact ⟨⟨list ▸ isWordChar_toDigits (by decide) (by decide) n, list ▸ Nat.toDigits_ne_nil⟩,
      list ▸ number_decimal n⟩
  · have list : ("0x" ++ String.ofList (Nat.toDigits 16 n)).toList = '0' :: 'x' :: Nat.toDigits 16 n := by simp
    have chars : ∀ c ∈ '0' :: 'x' :: Nat.toDigits 16 n, IsWordChar c := by
      simpa [IsWordChar] using isWordChar_toDigits (b := 16) (by decide) (by decide) n
    exact ⟨⟨list ▸ chars, by simp⟩, list ▸ number_hexadecimal n⟩

/-- A mnemonic and one operand are read as the mnemonic's line of that operand. -/
theorem readLine_operand {read : List Char → Option α} {make : α → AsmLine} {a : α} (hm : wordCheck m = true)
    (form : ∀ cs, lineOfOne m.toList cs = (read cs).map make) (hx : Reads read x a) :
    readLine (m ++ " " ++ x) = some (make a) := by
  have word := isWord_of_check hm
  rw [readLine_one (by simp) word.chars word.nonempty hx.word.chars hx.word.nonempty, form, hx.value]
  rfl

/-- A mnemonic and two operands are read as a line of two operands. -/
theorem readLine_operands (hm : wordCheck m = true) (hx : IsWord x) (hy : IsWord y) :
    readLine (m ++ " " ++ x ++ ", " ++ y) = lineOfTwo m.toList x.toList y.toList :=
  have word := isWord_of_check hm
  readLine_two (by simp) word.chars word.nonempty hx.chars hx.nonempty hy.chars hy.nonempty

section Forms
variable (q : Slot) (p : Pair) (f : FlagBit)

/-! The reader on the text of each form of R81 that has an operand. -/

theorem readLine_readRegister : readLine ("read_register " ++ slotName q) = some (.readRegister q) :=
  readLine_operand (m := "read_register") rfl (fun _ => rfl) (reads_slotName q)

theorem readLine_writeRegister (h : IsImmediate n imm) :
    readLine ("write_register " ++ slotName q ++ ", " ++ imm) = some (.writeRegister q n) := by
  have hx := reads_slotName q
  have hy := reads_immediate h
  refine (readLine_operands (m := "write_register") rfl hx.word hy.word).trans ?_
  simp [lineOfTwo, hy.value]

theorem readLine_readPair : readLine ("read_pair " ++ pairName p) = some (.readPair p) :=
  readLine_operand (m := "read_pair") rfl (fun _ => rfl) (reads_pairName p)

theorem readLine_writePair (h : IsImmediate n imm) :
    readLine ("write_pair " ++ pairName p ++ ", " ++ imm) = some (.writePair p n) := by
  have hx := reads_pairName p
  have hy := reads_immediate h
  refine (readLine_operands (m := "write_pair") rfl hx.word hy.word).trans ?_
  simp [lineOfTwo, hy.value]

theorem readLine_writeFlags (h : IsImmediate n imm) : readLine ("write_flags " ++ imm) = some (.writeFlags n) :=
  readLine_operand (m := "write_flags") rfl (fun _ => rfl) (reads_immediate h)

theorem readLine_setFlag : readLine ("set_flag " ++ flagName f) = some (.setFlag f) :=
  readLine_operand (m := "set_flag") rfl (fun _ => rfl) (reads_flagName f)

theorem readLine_writeSp (h : IsImmediate n imm) : readLine ("write_sp " ++ imm) = some (.writeSp n) :=
  readLine_operand (m := "write_sp") rfl (fun _ => rfl) (reads_immediate h)

theorem readLine_writePc (h : IsImmediate n imm) : readLine ("write_pc " ++ imm) = some (.writePc n) :=
  readLine_operand (m := "write_pc") rfl (fun _ => rfl) (reads_immediate h)

theorem readLine_clearFlag : readLine ("clear_flag " ++ flagName f) = some (.clearFlag f) :=
  readLine_operand (m := "clear_flag") rfl (fun _ => rfl) (reads_flagName f)

theorem readLine_getFlag : readLine ("get_flag " ++ flagName f) = some (.getFlag f) :=
  readLine_operand (m := "get_flag") rfl (fun _ => rfl) (reads_flagName f)

theorem readLine_word (h : IsImmediate n imm) : readLine (".word " ++ imm) = some (.word n) :=
  readLine_operand (m := ".word") rfl (fun _ => rfl) (reads_immediate h)

end Forms

/-- The decimal form of an immediate, as a printed line has it, is one of its two forms. -/
theorem isImmediate_toString (n : Nat) : IsImmediate n (toString n) := .inl rfl

/-- The reader inverts the printer. -/
theorem readLine_lineText : ∀ line, readLine (lineText line) = some line
  | .readRegister q => readLine_readRegister q
  | .writeRegister q n => readLine_writeRegister q (isImmediate_toString n)
  | .readPair p => readLine_readPair p
  | .writePair p n => readLine_writePair p (isImmediate_toString n)
  | .readFlags | .resetFlag | .readSp | .readPc => rfl
  | .writeFlags n => readLine_writeFlags (isImmediate_toString n)
  | .setFlag f => readLine_setFlag f
  | .writeSp n => readLine_writeSp (isImmediate_toString n)
  | .writePc n => readLine_writePc (isImmediate_toString n)
  | .clearFlag f => readLine_clearFlag f
  | .getFlag f => readLine_getFlag f
  | .word n => readLine_word (isImmediate_toString n)

theorem assembleText_of_readLine (h : readLine text = some line) : assembleText e text = assemble e line := by
  simp only [assembleText, h]

/-- A text read as a line of an operation assembles to that operation, where a word spells it and the block has it. -/
theorem assemblesTo_of_readLine (hr : readLine text = some line) (hl : lineOperation line = some i)
    (wf : i.wf = true) (ext : i.needsFlagExt = true → e = true) : AssemblesTo e text i := by
  refine ⟨encode i, ?_, decode_encode wf ext⟩
  rw [assembleText_of_readLine hr, assemble_of_lineOperation hl, if_pos ⟨wf, ext⟩]

/-- A text read as a `.word` line assembles to the word it names, of at most 32 bits. -/
theorem assembleText_word (hr : readLine text = some (.word n)) (hn : n ≤ 0xFFFFFFFF) :
    ∃ w, assembleText e text = some w ∧ w.toNat = n := by
  have hw : assemble e (.word n) = some (BitVec.ofNat 32 n) := immediate_eq_some.mpr ⟨by omega, rfl⟩
  exact ⟨_, (assembleText_of_readLine hr).trans hw, toNat_of_assemble_word hw⟩

/-- The tables of names written out in the statement are the model's names with their numbers (R70 to R72). -/
theorem slot_of_mem_table {r : String} {k : Int}
    (h : (r, k) ∈ [("A", 0), ("F", 1), ("B", 2), ("C", 3), ("D", 4), ("E", 5), ("H", 6), ("L", 7)]) :
    ∃ q, slotName q = r ∧ slotNumber q = k := by
  have named : (r, k) ∈ [Slot.A, .F, .B, .C, .D, .E, .H, .L].map fun q => (slotName q, slotNumber q) := h
  obtain ⟨q, -, hq⟩ := List.mem_map.mp named
  exact ⟨q, Prod.mk.inj hq⟩

theorem pair_of_mem_table {pp : String} {k : Int} (h : (pp, k) ∈ [("AF", 0), ("BC", 2), ("DE", 4), ("HL", 6)]) :
    ∃ p, pairName p = pp ∧ pairNumber p = k := by
  have named : (pp, k) ∈ [Pair.AF, .BC, .DE, .HL].map fun p => (pairName p, pairNumber p) := h
  obtain ⟨p, -, hp⟩ := List.mem_map.mp named
  exact ⟨p, Prod.mk.inj hp⟩

theorem flag_of_mem_table {name : String} {k : Int}
    (h : (name, k) ∈ [("ZERO", 7), ("SUBTRACT", 6), ("H_CARRY", 5), ("CARRY", 4)]) :
    ∃ f, flagName f = name ∧ flagNumber f = k := by
  have named : (name, k) ∈ [FlagBit.zero, .subtract, .hCarry, .carry].map fun f => (flagName f, flagNumber f) := h
  obtain ⟨f, -, hf⟩ := List.mem_map.mp named
  exact ⟨f, Prod.mk.inj hf⟩

end Texts

/-- Settles O39: the text of a form reads as its line (`readLine_readRegister` and the lemmas after it), and the line
assembles to its operation (`assemblesTo_of_readLine`). -/
theorem assemblerTextsSpellTheirOperations : Obligations.AssemblerTextsSpellTheirOperations := by
  unfold Obligations.AssemblerTextsSpellTheirOperations
  refine ⟨fun e r k h => ?_, fun e pp k h => ?_, fun e name k h => ?_, fun e => ?_, fun e n imm h => ?_,
    readLine_lineText⟩
  · obtain ⟨q, rfl, rfl⟩ := slot_of_mem_table h
    have idx := fitsField_slotNumber q
    refine ⟨assemblesTo_of_readLine (readLine_readRegister q) rfl idx nofun, fun n imm hn himm => ?_⟩
    have wf := Bool.and_eq_true_iff.mpr ⟨idx, fitsField_of_le (k := 8) hn⟩
    exact assemblesTo_of_readLine (readLine_writeRegister q himm) rfl wf nofun
  · obtain ⟨p, rfl, rfl⟩ := pair_of_mem_table h
    have idx := fitsField_pairNumber p
    refine ⟨assemblesTo_of_readLine (readLine_readPair p) rfl idx nofun, fun n imm hn himm => ?_⟩
    have wf := Bool.and_eq_true_iff.mpr ⟨idx, fitsField_of_le (k := 16) hn⟩
    exact assemblesTo_of_readLine (readLine_writePair p himm) rfl wf nofun
  · obtain ⟨f, rfl, rfl⟩ := flag_of_mem_table h
    have bit := fitsField_flagNumber f
    exact ⟨assemblesTo_of_readLine (readLine_setFlag f) rfl bit nofun,
      assemblesTo_of_readLine (readLine_clearFlag f) rfl bit fun _ => rfl,
      assemblesTo_of_readLine (readLine_getFlag f) rfl bit fun _ => rfl⟩
  · exact ⟨assemblesTo_of_readLine (line := .readFlags) rfl rfl rfl nofun,
      assemblesTo_of_readLine (line := .resetFlag) rfl rfl rfl nofun,
      assemblesTo_of_readLine (line := .readSp) rfl rfl rfl nofun,
      assemblesTo_of_readLine (line := .readPc) rfl rfl rfl nofun⟩
  · exact ⟨fun hn => assemblesTo_of_readLine (readLine_writeFlags h) rfl (fitsField_of_le hn) nofun,
      fun hn => ⟨assemblesTo_of_readLine (readLine_writeSp h) rfl (fitsField_of_le hn) nofun,
        assemblesTo_of_readLine (readLine_writePc h) rfl (fitsField_of_le hn) nofun⟩,
      assembleText_word (readLine_word h)⟩

end Sys2Proof.Machine
end

section
/-! Proofs: the family 40_register_access.md. The word of each register operation spelled with shifts and or (R73), the
number of each byte a write stores (R76), and the faults of an index or a select that names nothing (R151). -/

namespace Sys2Proof.Machine

section WordSpelling
variable {e : Bool} {i : Instr} {w : Word} {k v : Int}

/-- An operation's encoding spells it, both ways, on a block that has the operation. -/
theorem spells_of_encode (h : encode i = w) (wf : i.wf = true) (ext : i.needsFlagExt = true → e = true) :
    Spells e w i := ⟨h, h ▸ decode_encode wf ext⟩

/-- The word of an operation with an index, spelled with the index as a number (R73). -/
theorem requestOf_idx_eq_or (op : BitVec 4) (data : Half) (hk : fitsField 3 k = true) :
    requestOf op (BitVec.ofInt 3 k) 0 data =
      op.setWidth 32 <<< 28 ||| BitVec.ofInt 32 k <<< 25 ||| data.setWidth 32 := by
  rw [requestOf_eq_or, setWidth_ofInt_of_fits (by decide) hk]
  simp

/-- The word of each register operation, as its rule spells it (R100 to R103). -/
theorem spells_readRegister (hk : fitsField 3 k = true) :
    Spells e (0x00000000#32 ||| (BitVec.ofInt 32 k <<< 25)) (.readRegister k) := by
  refine spells_of_encode ?_ hk nofun
  rw [encode, requestOf_idx_eq_or _ _ hk]
  simp

theorem spells_writeRegister (hk : fitsField 3 k = true) (hv : fitsField 8 v = true) :
    Spells e (0x10000000#32 ||| (BitVec.ofInt 32 k <<< 25) ||| BitVec.ofInt 32 v) (.writeRegister k v) := by
  refine spells_of_encode ?_ (Bool.and_eq_true_iff.mpr ⟨hk, hv⟩) nofun
  rw [encode, requestOf_idx_eq_or _ _ hk, setWidth_low_byte, setWidth_ofInt_of_fits (by decide) hv]
  simp

theorem spells_readPair (hk : fitsField 3 k = true) :
    Spells e (0x20000000#32 ||| (BitVec.ofInt 32 k <<< 25)) (.readPair k) := by
  refine spells_of_encode ?_ hk nofun
  rw [encode, requestOf_idx_eq_or _ _ hk]
  simp

theorem spells_writePair (hk : fitsField 3 k = true) (hv : fitsField 16 v = true) :
    Spells e (0x30000000#32 ||| (BitVec.ofInt 32 k <<< 25) ||| BitVec.ofInt 32 v) (.writePair k v) := by
  refine spells_of_encode ?_ (Bool.and_eq_true_iff.mpr ⟨hk, hv⟩) nofun
  rw [encode, requestOf_idx_eq_or _ _ hk, setWidth_ofInt_of_fits (by decide) hv]
  simp

/-- Every pair's start fits IDX (R71). -/
theorem fitsField_pairStart (p : Pair) : fitsField 3 (pairStart p) = true :=
  pairStart_eq_pairNumber p ▸ fitsField_pairNumber p

/-- A word of write_register with a bit of DATA[15:8] set does not decode (R75, R78). -/
theorem decode_writeRegister_wide (op : w.toNat / 2 ^ 28 = 1) (wide : 2 ^ 8 ≤ w.toNat % 2 ^ 16) :
    decode e w = .error .reservedField := by
  obtain ⟨i, hi⟩ := exists_operation (e := e) (w := w) (.inl (by omega))
  rw [decode_of_operation hi, if_pos ((unusedFieldSet_iff (by omega)).mpr (by omega))]

end WordSpelling

section WrittenBytes
variable (v : Int)

/-- The byte write_register stores, as a number (R76). -/
theorem byteOf_toNat : ((byteOf v).toNat : Int) = v % 2 ^ 8 := ofInt_toNat 8 v

/-- The value write_pair splits, as a number (R76). -/
theorem halfOf_toNat : ((halfOf v).toNat : Int) = v % 2 ^ 16 := ofInt_toNat 16 v

/-- The high byte write_pair stores, as a number (R52). -/
theorem highByte_halfOf_toNat : ((highByte (halfOf v)).toNat : Int) = v / 2 ^ 8 % 2 ^ 8 := by
  have half := halfOf_toNat v
  simp only [highByte, BitVec.extractLsb'_toNat, Nat.shiftRight_eq_div_pow]
  omega

/-- The low byte write_pair stores, as a number (R52). -/
theorem lowByte_halfOf_toNat : ((lowByte (halfOf v)).toNat : Int) = v % 2 ^ 8 := by
  have half := halfOf_toNat v
  simp only [lowByte, BitVec.extractLsb'_toNat, Nat.shiftRight_eq_div_pow]
  omega

/-- The composition of a pair spelled with a shift and or (R52, R106). -/
theorem compose_eq_or (high low : Byte) : compose high low = (high.setWidth 16 <<< 8) ||| low.setWidth 16 := by
  rw [compose, BitVec.append_def, BitVec.shiftLeftZeroExtend_eq, BitVec.setWidth'_eq]

end WrittenBytes

section OperandFaults
variable {s : State} {i : Instr} {c : FaultCode} {k : Int}

/-- An operation that breaks the caller's contract faults, in the statements' own terms (R151, R152). -/
theorem raises_of_callFault (h : callFault s.flagExt i = some c) : Raises i s c :=
  ⟨_, exec_of_callFault h, rfl, ⟨_, rfl⟩, rfl, rfl⟩

/-- An index that names no slot (R76). -/
theorem callFault_of_index_outside (h : k < 0 ∨ 7 < k) (e : Bool) : callFault e (.readRegister k) = some .slotRange :=
  if_neg (by omega)

end OperandFaults

/-- Settles O2: every index 0 to 7 is a slot's, where read_register returns; every other breaks the contract. -/
theorem readRegisterReturnsTheSlot : Obligations.ReadRegisterReturnsTheSlot := by
  unfold Obligations.ReadRegisterReturnsTheSlot
  refine fun s i => ⟨fun h0 h7 => ⟨fun e => ?word, ?value⟩, ?fault⟩
  case word => exact spells_readRegister (fitsField_iff.mpr ⟨h0, by omega⟩)
  case value =>
    rintro q rfl
    exact returns_readRegister s q
  case fault => exact fun h => raises_of_callFault (callFault_of_index_outside h s.flagExt)

/-- Settles O3: what a slot reads as after the write is `readSlot_writeSlot`, and the byte written is `byteOf_toNat`. -/
theorem writeRegisterStoresOneByte : Obligations.WriteRegisterStoresOneByte := by
  unfold Obligations.WriteRegisterStoresOneByte
  refine ⟨fun s i v => ⟨fun h0 h7 => ⟨fun e v0 v8 => ?word, ?written⟩, ?fault⟩, fun e w => decode_writeRegister_wide⟩
  case word => exact spells_writeRegister (fitsField_iff.mpr ⟨h0, by omega⟩) (fitsField_iff.mpr ⟨v0, by omega⟩)
  case written =>
    obtain ⟨r, rfl⟩ := exists_slotIndex h0 h7
    refine ⟨_, writes_writeRegister s r v, rfl, rfl, fun q => ?_⟩
    simp only [ne_eq, slotIndex_inj, readSlot_respond, readSlot_writeSlot]
    exact ⟨fun same => by rw [if_pos same, byteOf_toNat], fun other => if_neg other⟩
  case fault => exact fun h => raises_of_callFault (callFault_of_index_outside h s.flagExt)

/-- Settles O4: a pair start is a pair's, whose slots are the two with the given indexes; every other select breaks the
contract. -/
theorem readPairComposesItsSlots : Obligations.ReadPairComposesItsSlots := by
  unfold Obligations.ReadPairComposesItsSlots
  refine fun s p => ⟨fun start => ?good, ?odd, ?outside⟩
  case good =>
    obtain ⟨pair, rfl⟩ := exists_pairStart start
    refine ⟨fun e => spells_readPair (fitsField_pairStart pair), fun high low isHigh isLow => ?_⟩
    obtain rfl := pairStart_eq_slotIndex.mp isHigh.symm
    obtain rfl := pairStart_succ_eq_slotIndex.mp isLow.symm
    rw [← compose_eq_or]
    exact returns_readPair s pair
  case odd => exact fun h => raises_of_callFault (pairOf_error (pairOf_eq_pairStart.mpr h) s.flagExt)
  case outside => exact fun h => raises_of_callFault (pairOf_error (pairOf_eq_slotRange.mpr h) s.flagExt)

/-- Settles O5: what a slot reads as after the write is `readSlot_writePair`, and the bytes written are
`highByte_halfOf_toNat` and `lowByte_halfOf_toNat`. -/
theorem writePairSplitsItsValue : Obligations.WritePairSplitsItsValue := by
  unfold Obligations.WritePairSplitsItsValue
  refine fun s p v => ⟨fun start => ?good, ?odd, ?outside⟩
  case good =>
    obtain ⟨pair, rfl⟩ := exists_pairStart start
    refine ⟨fun e v0 v16 => spells_writePair (fitsField_pairStart pair) (fitsField_iff.mpr ⟨v0, by omega⟩),
      _, writes_writePair s pair v, rfl, rfl, fun q => ?_⟩
    simp only [eq_comm (a := slotIndex q), ne_eq, pairStart_eq_slotIndex, pairStart_succ_eq_slotIndex,
      readSlot_respond]
    refine ⟨?_, ?_, fun notHigh notLow => ?_⟩
    · rintro rfl
      rw [readSlot_writePair_high, highByte_halfOf_toNat]
    · rintro rfl
      rw [readSlot_writePair_low, lowByte_halfOf_toNat]
    · rw [readSlot_writePair, if_neg notLow, if_neg notHigh]
  case odd => exact fun h => raises_of_callFault (pairOf_error (pairOf_eq_pairStart.mpr h) s.flagExt)
  case outside => exact fun h => raises_of_callFault (pairOf_error (pairOf_eq_slotRange.mpr h) s.flagExt)

end Sys2Proof.Machine
end

section
/-! Proofs: the family 41_flags.md. The word of each flag operation spelled with shifts and or (R73), the byte each of
them leaves in F, bit by bit (R120), and the laws that follow from those bytes (R128). -/

namespace Sys2Proof.Machine

section FlagWords
variable {e : Bool} {w : Word} {b v : Int}

/-- The word of an operation with a bit position, spelled with the position as a number (R73). -/
theorem requestOf_bit_eq_or (op : BitVec 4) (hb : fitsField 3 b = true) :
    requestOf op 0 (BitVec.ofInt 3 b) 0 = op.setWidth 32 <<< 28 ||| BitVec.ofInt 32 b <<< 22 := by
  rw [requestOf_eq_or, setWidth_ofInt_of_fits (by decide) hb]
  simp

/-- The word of each flag operation, as its rule spells it (R121 to R126). -/
theorem spells_readFlags : Spells e 0x40000000#32 .readFlags := spells_of_encode (by decide) rfl nofun

theorem spells_writeFlags (hv : fitsField 8 v = true) :
    Spells e (0x50000000#32 ||| BitVec.ofInt 32 v) (.writeFlags v) := by
  refine spells_of_encode ?_ hv nofun
  rw [encode, requestOf_eq_or, setWidth_low_byte, setWidth_ofInt_of_fits (by decide) hv]
  simp

theorem spells_setFlag (hb : fitsField 3 b = true) :
    Spells e (0x60000000#32 ||| (BitVec.ofInt 32 b <<< 22)) (.setFlag b) := by
  refine spells_of_encode ?_ hb nofun
  rw [encode, requestOf_bit_eq_or _ hb]
  simp

theorem spells_resetFlag : Spells e 0x70000000#32 .resetFlag := spells_of_encode (by decide) rfl nofun

theorem spells_clearFlag (hb : fitsField 3 b = true) :
    Spells true (0xC0000000#32 ||| (BitVec.ofInt 32 b <<< 22)) (.clearFlag b) := by
  refine spells_of_encode ?_ hb (fun _ => rfl)
  rw [encode, requestOf_bit_eq_or _ hb]
  simp

theorem spells_getFlag (hb : fitsField 3 b = true) :
    Spells true (0xD0000000#32 ||| (BitVec.ofInt 32 b <<< 22)) (.getFlag b) := by
  refine spells_of_encode ?_ hb (fun _ => rfl)
  rw [encode, requestOf_bit_eq_or _ hb]
  simp

/-- Every flag's position fits BIT (R72). -/
theorem fitsField_flagPosition (f : FlagBit) : fitsField 3 (flagPosition f) = true :=
  flagPosition_eq_flagNumber f ▸ fitsField_flagNumber f

/-- A word of write_flags with any bit set between OP and DATA[7:0] does not decode (R75, R78). -/
theorem decode_writeFlags_unused (op : w.toNat / 2 ^ 28 = 5) (wide : 2 ^ 8 ≤ w.toNat % 2 ^ 28) :
    decode e w = .error .reservedField := by
  obtain ⟨i, hi⟩ := exists_operation (e := e) (w := w) (.inl (by omega))
  rw [decode_of_operation hi, if_pos ((unusedFieldSet_iff (by omega)).mpr (by omega))]

/-- Without the extension a word of OP 0xC or 0xD does not decode (R79). -/
theorem decode_extension_absent (h : 12 ≤ w.toNat / 2 ^ 28) : decode false w = .error .illegalOp := by
  simp only [decode, operation_eq_none.mpr (.inr ⟨h, rfl⟩)]

end FlagWords

section BitPositions
variable {e : Bool} {b : Int}

/-- Every position from 4 to 7 is a flag's (R72). -/
theorem exists_flagPosition (h4 : 4 ≤ b) (h7 : b ≤ 7) : ∃ f, b = flagPosition f :=
  flag_of_contract (e := true) (if_pos ⟨h4, h7⟩)

/-- The same of a position given as a natural number. -/
theorem exists_flagPosition_nat {k : Nat} (h4 : 4 ≤ k) (h7 : k ≤ 7) : ∃ f, k = flagPosition f := by
  obtain ⟨f, hf⟩ := exists_flagPosition (b := k) (by omega) (by omega)
  exact ⟨f, Int.ofNat_inj.mp hf⟩

/-- A position that is no flag's breaks the contract of set_flag and, with the extension, of the other two (R123, R125,
R126). -/
theorem callFault_setFlag_outside (h : b < 4 ∨ 7 < b) : callFault e (.setFlag b) = some .flagBit :=
  if_neg (by omega)

theorem callFault_clearFlag_outside (he : e = true) (h : b < 4 ∨ 7 < b) :
    callFault e (.clearFlag b) = some .flagBit := he ▸ callFault_setFlag_outside (e := true) h

theorem callFault_getFlag_outside (he : e = true) (h : b < 4 ∨ 7 < b) :
    callFault e (.getFlag b) = some .flagBit := he ▸ callFault_setFlag_outside (e := true) h

/-- Without the extension clear_flag and get_flag are no operations (R74). -/
theorem callFault_clearFlag_absent (he : e = false) : callFault e (.clearFlag b) = some .illegalOp := if_pos he

theorem callFault_getFlag_absent (he : e = false) : callFault e (.getFlag b) = some .illegalOp := if_pos he

end BitPositions

section FlagBytes
variable (v : Byte) (f g : FlagBit)

/-- Setting is idempotent, clearing is idempotent, and two settings commute (R128). -/
@[simp] theorem setFlagIn_setFlagIn : setFlagIn (setFlagIn v f) f = setFlagIn v f := by
  simp only [setFlagIn, BitVec.or_assoc, BitVec.or_self]

@[simp] theorem clearFlagIn_clearFlagIn : clearFlagIn (clearFlagIn v f) f = clearFlagIn v f := by
  simp only [clearFlagIn, BitVec.and_assoc, BitVec.and_self]

theorem setFlagIn_comm : setFlagIn (setFlagIn v f) g = setFlagIn (setFlagIn v g) f := by
  simp only [setFlagIn, BitVec.or_assoc, BitVec.or_comm (flagMask f)]

/-- F as it is read, without one flag, and reduced to the byte that write_flags stores, is F with that flag cleared. -/
theorem byteOf_zext16_and_not :
    byteOf (zext16 v &&& ~~~(1#16 <<< flagPosition f)).toNat = clearFlagIn v f := by
  have low : ∀ h : Half, byteOf h.toNat = h.setWidth 8 := fun h => by
    rw [byteOf, BitVec.ofInt_natCast, BitVec.ofNat_toNat]
  rw [low, clearFlagIn, BitVec.setWidth_and, zext16, BitVec.setWidth_setWidth_of_le _ (by decide), BitVec.setWidth_eq]
  cases f <;> rfl

end FlagBytes

section FlagAnswers
variable (s : State) (f : FlagBit)

/-- read_flags in the statements' own terms (R121). -/
theorem returns_readFlags : Returns .readFlags s (zext16 (readSlot s .F)) := rfl

/-- write_flags in the statements' own terms (R122). -/
theorem writes_writeFlags (v : Int) : Writes (.writeFlags v) s (respond .done (writeSlot s .F (byteOf v))) :=
  ⟨rfl, rfl, rfl, rfl, rfl, rfl⟩

/-- set_flag in the statements' own terms (R123). -/
theorem writes_setFlag :
    Writes (.setFlag (flagPosition f)) s (respond .done (writeSlot s .F (setFlagIn (readSlot s .F) f))) :=
  ⟨exec_setFlag s f, rfl, rfl, rfl, rfl, rfl⟩

/-- reset_flag in the statements' own terms (R124). -/
theorem writes_resetFlag : Writes .resetFlag s (respond .done (writeSlot s .F 0x00#8)) :=
  ⟨rfl, rfl, rfl, rfl, rfl, rfl⟩

/-- clear_flag in the statements' own terms (R125). -/
theorem writes_clearFlag (he : s.flagExt = true) :
    Writes (.clearFlag (flagPosition f)) s (respond .done (writeSlot s .F (clearFlagIn (readSlot s .F) f))) :=
  ⟨exec_clearFlag s f he, rfl, rfl, rfl, rfl, rfl⟩

/-- get_flag in the statements' own terms (R126). -/
theorem returns_getFlag (he : s.flagExt = true) :
    Returns (.getFlag (flagPosition f)) s
      (if (readSlot s .F).getLsbD (flagPosition f) then 0x0001#16 else 0x0000#16) := by
  refine (exec_getFlag s f he).trans ?_
  rw [flagValue_eq, apply_ite zext16]
  rfl

end FlagAnswers

section OneBitWritten
variable {s : State} {i : Instr} {c : Byte} {f : FlagBit} {x : Bool}

/-- A write of one slot leaves every other slot (R105). -/
theorem readSlot_respond_writeSlot_of_ne {q r : Slot} (a : Response) (h : q ≠ r) :
    readSlot (respond a (writeSlot s r c)) q = readSlot s q := by
  rw [readSlot_respond, readSlot_writeSlot, if_neg h]

/-- The operation writes `x` to bit `b` of F and leaves every other bit of F, every other slot, SP and PC. -/
def WritesFlagBit (i : Instr) (s : State) (b : Int) (x : Bool) : Prop :=
  ∃ t, Writes i s t ∧ t.sp = s.sp ∧ t.pc = s.pc ∧
    (∀ q, q ≠ .F → readSlot t q = readSlot s q) ∧
    ∀ k : Nat, k < 8 → ((k : Int) = b → (readSlot t .F).getLsbD k = x) ∧
      ((k : Int) ≠ b → (readSlot t .F).getLsbD k = (readSlot s .F).getLsbD k)

/-- An operation that replaces F by a byte that differs from it in one flag writes that flag's bit alone. -/
theorem writesFlagBit_of_bits (hw : Writes i s (respond .done (writeSlot s .F c)))
    (bits : ∀ k < 8, c.getLsbD k = if k = flagPosition f then x else (readSlot s .F).getLsbD k) :
    WritesFlagBit i s (flagPosition f) x := by
  refine ⟨_, hw, rfl, rfl, fun q => readSlot_respond_writeSlot_of_ne _, fun k hk => ?_⟩
  simp only [readSlot_respond, readSlot_writeSlot_self, bits k hk, Nat.cast_inj, ne_eq]
  exact ⟨fun own => if_pos own, fun other => if_neg other⟩

/-- set_flag writes 1 to its bit of F (R123). -/
theorem writesFlagBit_setFlag : WritesFlagBit (.setFlag (flagPosition f)) s (flagPosition f) true :=
  writesFlagBit_of_bits (writes_setFlag s f) (getLsbD_setFlagIn _ f)

/-- clear_flag writes 0 to its bit of F (R125). -/
theorem writesFlagBit_clearFlag (he : s.flagExt = true) :
    WritesFlagBit (.clearFlag (flagPosition f)) s (flagPosition f) false :=
  writesFlagBit_of_bits (writes_clearFlag s f he) (getLsbD_clearFlagIn _ f)

end OneBitWritten

/-- Settles O6: read_flags and read_register at the index of F return the same slot. -/
theorem readFlagsReturnsF : Obligations.ReadFlagsReturnsF :=
  ⟨fun _ => spells_readFlags, fun s => ⟨returns_readFlags s, (exec_readRegister s .F).symm⟩⟩

/-- Settles O7: write_flags and write_register at the index of F write the same byte, which is `byteOf_toNat`. -/
theorem writeFlagsReplacesF : Obligations.WriteFlagsReplacesF := by
  unfold Obligations.WriteFlagsReplacesF
  refine ⟨fun s v => ⟨fun e v0 v8 => ?word, (exec_writeRegister s .F v).symm, ?written⟩,
    fun e w => decode_writeFlags_unused⟩
  case word => exact spells_writeFlags (fitsField_iff.mpr ⟨v0, by omega⟩)
  case written =>
    refine ⟨_, writes_writeFlags s v, ?_, rfl, rfl, fun q => readSlot_respond_writeSlot_of_ne _⟩
    rw [readSlot_respond, readSlot_writeSlot_self, byteOf_toNat]

/-- Settles O8: every position 4 to 7 is a flag's, whose bit set_flag writes; every other breaks the contract. -/
theorem setFlagSetsOneBit : Obligations.SetFlagSetsOneBit := by
  unfold Obligations.SetFlagSetsOneBit
  refine fun s b => ⟨fun h4 h7 => ?good, fun h => raises_of_callFault (callFault_setFlag_outside h)⟩
  obtain ⟨f, rfl⟩ := exists_flagPosition h4 h7
  exact ⟨fun e => spells_setFlag (fitsField_flagPosition f), writesFlagBit_setFlag⟩

/-- Settles O9: reset_flag writes the byte 0x00 to F and to no other slot. -/
theorem resetFlagClearsAllOfF : Obligations.ResetFlagClearsAllOfF :=
  ⟨fun _ => spells_resetFlag, fun s => ⟨_, writes_resetFlag s, by rw [readSlot_respond, readSlot_writeSlot_self], rfl,
    rfl, fun _ => readSlot_respond_writeSlot_of_ne _⟩⟩

/-- Settles O10: with the extension as set_flag, writing 0; without it neither the operation nor its OP exists. -/
theorem clearFlagClearsOneBit : Obligations.ClearFlagClearsOneBit := by
  unfold Obligations.ClearFlagClearsOneBit
  refine ⟨fun s b he => ⟨fun h4 h7 => ?good, fun h => raises_of_callFault (callFault_clearFlag_outside he h)⟩,
    fun s b he => raises_of_callFault (callFault_clearFlag_absent he), fun w op => decode_extension_absent (by omega)⟩
  obtain ⟨f, rfl⟩ := exists_flagPosition h4 h7
  exact ⟨spells_clearFlag (fitsField_flagPosition f), writesFlagBit_clearFlag he⟩

/-- Settles O11: with the extension get_flag returns the bit at the flag's position, which is `flagValue_eq`; without it
neither the operation nor its OP exists. -/
theorem getFlagReturnsOneBit : Obligations.GetFlagReturnsOneBit := by
  unfold Obligations.GetFlagReturnsOneBit
  refine ⟨fun s b he => ⟨fun k h4 h7 hk => ?good, fun h => raises_of_callFault (callFault_getFlag_outside he h)⟩,
    fun s b he => raises_of_callFault (callFault_getFlag_absent he), fun w op => decode_extension_absent (by omega)⟩
  subst hk
  obtain ⟨f, rfl⟩ := exists_flagPosition_nat h4 h7
  exact ⟨spells_getFlag (fitsField_flagPosition f), returns_getFlag s f he⟩

section FlagLaws
variable (s : State) (c : Byte) (f g : FlagBit)

/-- A second write of a slot, with its answer, leaves nothing of the first. -/
@[simp] theorem respond_writeSlot_respond_writeSlot (a a' : Response) (r : Slot) (c' : Byte) :
    respond a' (writeSlot (respond a (writeSlot s r c)) r c') = respond a' (writeSlot s r c') := by
  cases r <;> rfl

/-- What the flag operations write just after F was written. -/
theorem writes_resetFlag_after :
    Writes .resetFlag (respond .done (writeSlot s .F c)) (respond .done (writeSlot s .F 0x00#8)) := by
  simpa using writes_resetFlag (respond .done (writeSlot s .F c))

theorem writes_setFlag_after :
    Writes (.setFlag (flagPosition f)) (respond .done (writeSlot s .F c))
      (respond .done (writeSlot s .F (setFlagIn c f))) := by
  simpa using writes_setFlag (respond .done (writeSlot s .F c)) f

theorem writes_clearFlag_after (he : s.flagExt = true) :
    Writes (.clearFlag (flagPosition f)) (respond .done (writeSlot s .F c))
      (respond .done (writeSlot s .F (clearFlagIn c f))) := by
  simpa using writes_clearFlag (respond .done (writeSlot s .F c)) f he

/-- After reset_flag both reads of F return 0, and a second reset_flag answers the same state (R128). -/
theorem resetFlag_law :
    ∃ t, Writes .resetFlag s t ∧ Returns .readFlags t 0x0000#16 ∧ Returns (.readRegister 1) t 0x0000#16 ∧
      exec .resetFlag t = .next t := by
  have zero : readSlot (respond .done (writeSlot s .F 0x00#8)) .F = 0x00#8 := by
    rw [readSlot_respond, readSlot_writeSlot_self]
  refine ⟨_, writes_resetFlag s, ?_, ?_, (writes_resetFlag_after s _).1⟩
  · have := returns_readFlags (respond .done (writeSlot s .F 0x00#8))
    rwa [zero] at this
  · have := returns_readRegister (respond .done (writeSlot s .F 0x00#8)) .F
    rwa [zero] at this

/-- set_flag is idempotent (R128). -/
theorem setFlag_idempotent :
    ∃ t, Writes (.setFlag (flagPosition f)) s t ∧ exec (.setFlag (flagPosition f)) t = .next t :=
  ⟨_, writes_setFlag s f, by simpa using (writes_setFlag_after s (setFlagIn (readSlot s .F) f) f).1⟩

/-- clear_flag is idempotent (R128). -/
theorem clearFlag_idempotent (he : s.flagExt = true) :
    ∃ t, Writes (.clearFlag (flagPosition f)) s t ∧ exec (.clearFlag (flagPosition f)) t = .next t :=
  ⟨_, writes_clearFlag s f he, by simpa using (writes_clearFlag_after s (clearFlagIn (readSlot s .F) f) f he).1⟩

/-- Two set_flag commute (R128). -/
theorem setFlag_comm :
    ∃ t t' u, Writes (.setFlag (flagPosition f)) s t ∧ Writes (.setFlag (flagPosition g)) s t' ∧
      Writes (.setFlag (flagPosition g)) t u ∧ Writes (.setFlag (flagPosition f)) t' u :=
  ⟨_, _, _, writes_setFlag s f, writes_setFlag s g, writes_setFlag_after s _ g,
    setFlagIn_comm _ g f ▸ writes_setFlag_after s (setFlagIn (readSlot s .F) g) f⟩

/-- write_flags of F as read_flags returned it, without one flag, writes F with that flag cleared (R128). -/
theorem writes_writeFlags_without (a : Response) :
    Writes (.writeFlags (zext16 (readSlot s .F) &&& ~~~(1#16 <<< flagPosition f)).toNat) (respond a s)
      (respond .done (writeSlot s .F (clearFlagIn (readSlot s .F) f))) :=
  byteOf_zext16_and_not (readSlot s .F) f ▸ writes_writeFlags (respond a s) _

end FlagLaws

/-- Settles O18: each law is one of the byte laws `setFlagIn_setFlagIn`, `clearFlagIn_clearFlagIn`, `setFlagIn_comm` and
`byteOf_zext16_and_not`, since a second write of F leaves nothing of the first. -/
theorem flagFamilyLaws : Obligations.FlagFamilyLaws := by
  unfold Obligations.FlagFamilyLaws
  refine ⟨resetFlag_law, fun s b h4 h7 => ?set, fun s b he h4 h7 => ?clear, fun s b c b4 b7 c4 c7 => ?commute,
    fun s k h4 h7 => ?writeBack⟩
  case set =>
    obtain ⟨f, rfl⟩ := exists_flagPosition h4 h7
    exact setFlag_idempotent s f
  case clear =>
    obtain ⟨f, rfl⟩ := exists_flagPosition h4 h7
    exact clearFlag_idempotent s f he
  case commute =>
    obtain ⟨f, rfl⟩ := exists_flagPosition b4 b7
    obtain ⟨g, rfl⟩ := exists_flagPosition c4 c7
    exact setFlag_comm s f g
  case writeBack =>
    obtain ⟨f, rfl⟩ := exists_flagPosition_nat h4 h7
    refine ⟨_, returns_readFlags s, _, writes_writeFlags_without s f _, exec_clearFlag s f, fun j hj => ?_⟩
    rw [readSlot_respond, readSlot_writeSlot_self, getLsbD_clearFlagIn _ _ _ hj]

end Sys2Proof.Machine
end

section
/-! Proofs: the family 42_special_registers.md. The word of each operation on SP and PC spelled with or (R73), what each
of them answers (R140 to R143), and that no other operation changes SP or PC (R144). -/

namespace Sys2Proof.Machine

section WideWords
variable {e : Bool} {v : Int}

/-- The word of an operation with a 16-bit value and no other operand, spelled with the value as a number (R73). -/
theorem requestOf_half_eq_or (op : BitVec 4) (hv : fitsField 16 v = true) :
    requestOf op 0 0 (BitVec.ofInt 16 v) = op.setWidth 32 <<< 28 ||| BitVec.ofInt 32 v := by
  rw [requestOf_eq_or, setWidth_ofInt_of_fits (by decide) hv]
  simp

/-- The word of each operation on SP and PC, as its rule spells it (R140 to R143). -/
theorem spells_readSp : Spells e 0x80000000#32 .readSp := spells_of_encode (by decide) rfl nofun

theorem spells_readPc : Spells e 0xA0000000#32 .readPc := spells_of_encode (by decide) rfl nofun

theorem spells_writeSp (hv : fitsField 16 v = true) :
    Spells e (0x90000000#32 ||| BitVec.ofInt 32 v) (.writeSp v) :=
  spells_of_encode (requestOf_half_eq_or 0x9 hv) hv nofun

theorem spells_writePc (hv : fitsField 16 v = true) :
    Spells e (0xB0000000#32 ||| BitVec.ofInt 32 v) (.writePc v) :=
  spells_of_encode (requestOf_half_eq_or 0xB hv) hv nofun

end WideWords

section WideAnswers
variable (s : State)

/-- write_sp in the statements' own terms (R141). -/
theorem writes_writeSp (v : Int) : Writes (.writeSp v) s (respond .done (writeSp s (halfOf v))) :=
  ⟨rfl, rfl, rfl, rfl, rfl, rfl⟩

/-- write_pc in the statements' own terms (R143). -/
theorem writes_writePc (v : Int) : Writes (.writePc v) s (respond .done (writePc s (halfOf v))) :=
  ⟨rfl, rfl, rfl, rfl, rfl, rfl⟩

/-- write_sp and write_pc of a value given by its bits (R145). -/
theorem writes_writeSp_half (v : Half) : Writes (.writeSp v.toNat) s (respond .done (writeSp s v)) := by
  simpa using writes_writeSp s v.toNat

theorem writes_writePc_half (v : Half) : Writes (.writePc v.toNat) s (respond .done (writePc s v)) := by
  simpa using writes_writePc s v.toNat

/-- A pair reads back the value written to it through the requests themselves (R104). -/
theorem returns_readPair_writePair (p : Pair) (v : Half) :
    Returns (.readPair (pairStart p)) (respond .done (writePair s p v)) v := by
  simpa using returns_readPair (respond .done (writePair s p v)) p

end WideAnswers

section WideChanges
variable {s t : State} {i : Instr}

/-- An operation that leaves no recorded fault kept the caller's contract (R152, R175). -/
theorem callFault_eq_none_of_exec (h : exec i s = .next t) (ht : t.fault = none) : callFault s.flagExt i = none := by
  by_contra broken
  obtain ⟨c, hc⟩ := Option.ne_none_iff_exists'.mp broken
  rw [exec_of_callFault hc, raiseFault_eq_next] at h
  simp [← h] at ht

/-- An operation without a recorded fault holds its writes (R59). -/
theorem holdsLatest_of_exec (h : exec i s = .next t) (ht : t.fault = none) : HoldsLatest [i] s t := by
  obtain ⟨u, hu, -, held⟩ := exec_holdsLatest (callFault_eq_none_of_exec h ht)
  rw [hu] at h
  cases h
  exact held

/-- A cell that differs after one operation holds what the operation wrote there. -/
theorem written_of_lastWritten_ne {α : Type} {written : Instr → Option α} {before : α}
    (h : lastWritten written [i] before ≠ before) : written i = some (lastWritten written [i] before) := by
  cases hw : written i with
  | none => simp [lastWritten, hw] at h
  | some x => simp [lastWritten, hw]

/-- Only write_sp writes SP (R144). -/
theorem exists_writeSp_of_spWritten {x : Half} (h : spWritten i = some x) :
    ∃ v, i = .writeSp v ∧ (x.toNat : Int) = v % 2 ^ 16 := by
  cases i
  case writeSp v =>
    cases h
    exact ⟨v, rfl, halfOf_toNat v⟩
  all_goals cases h

/-- Only write_pc writes PC (R144). -/
theorem exists_writePc_of_pcWritten {x : Half} (h : pcWritten i = some x) :
    ∃ v, i = .writePc v ∧ (x.toNat : Int) = v % 2 ^ 16 := by
  cases i
  case writePc v =>
    cases h
    exact ⟨v, rfl, halfOf_toNat v⟩
  all_goals cases h

end WideChanges

/-- Settles O12: both words are fixed, and each read answers its register. -/
theorem readSpAndReadPc : Obligations.ReadSpAndReadPc :=
  ⟨fun _ => ⟨spells_readSp, spells_readPc⟩, fun s => ⟨returns_readSp s, returns_readPc s⟩⟩

/-- Settles O13: write_sp stores `halfOf v`, whose number is `halfOf_toNat`; PC and the slots are other fields. -/
theorem writeSpReplacesSp : Obligations.WriteSpReplacesSp := by
  unfold Obligations.WriteSpReplacesSp
  refine fun s v => ⟨fun e v0 v16 => ?word, _, writes_writeSp s v, halfOf_toNat v, rfl, fun q => ?slots⟩
  case word => exact spells_writeSp (fitsField_iff.mpr ⟨v0, by omega⟩)
  case slots => rw [readSlot_respond, readSlot_writeSp]

/-- Settles O14: write_pc stores `halfOf v`, whose number is `halfOf_toNat`; SP and the slots are other fields. -/
theorem writePcReplacesPc : Obligations.WritePcReplacesPc := by
  unfold Obligations.WritePcReplacesPc
  refine fun s v => ⟨fun e v0 v16 => ?word, _, writes_writePc s v, halfOf_toNat v, rfl, fun q => ?slots⟩
  case word => exact spells_writePc (fitsField_iff.mpr ⟨v0, by omega⟩)
  case slots => rw [readSlot_respond, readSlot_writePc]

/-- Settles O21: after an operation without a recorded fault SP and PC hold what it wrote there, so where one differs the
operation wrote it. -/
theorem spAndPcChangeOnlyByTheirWrites : Obligations.SpAndPcChangeOnlyByTheirWrites := by
  unfold Obligations.SpAndPcChangeOnlyByTheirWrites
  intro i s t h ht
  have held := holdsLatest_of_exec h ht
  rw [held.sp, held.pc]
  exact ⟨fun changed => exists_writeSp_of_spWritten (written_of_lastWritten_ne changed),
    fun changed => exists_writePc_of_pcWritten (written_of_lastWritten_ne changed)⟩

/-- Settles O22: each read of the state that the write answers returns the value written. -/
theorem wideReadsReturnTheWrittenValue : Obligations.WideReadsReturnTheWrittenValue := by
  unfold Obligations.WideReadsReturnTheWrittenValue
  refine fun s v => ⟨fun p start => ?pair, ⟨_, writes_writeSp_half s v, returns_readSp _, rfl⟩,
    _, writes_writePc_half s v, returns_readPc _, rfl⟩
  case pair =>
    obtain ⟨pair, rfl⟩ := exists_pairStart start
    exact ⟨_, writes_writePair_half s pair v, returns_readPair_writePair s pair v⟩

end Sys2Proof.Machine
end

section
/-! Proofs: the family 60_exceptions.md. A word that decodes is the word of its operation, so a fault found in the
operation records the same word as one found in the decoder (R151); the answer of every request is then the row of the
fault table that the request meets first (R153), and that answer keeps the fault state justified. -/

namespace Sys2Proof.Machine

section RecordedWord
variable {e : Bool} {w : Word} {i : Instr} {r : Request}

/-- A word with no unused field set is assembled from its own fields (R73, R75). -/
theorem exists_requestOf (clean : unusedFieldSet w = false) : ∃ op idx bit data, w = requestOf op idx bit data := by
  simp only [unusedFieldSet, Bool.or_eq_false_iff, bne_eq_false_iff_eq] at clean
  obtain ⟨⟨⟨⟨rsv, -⟩, -⟩, -⟩, -⟩ := clean
  exact ⟨_, _, _, _, (requestOf_fields rsv).symm⟩

/-- A word with no unused field set is the word of the operation that its OP selects (R74, R75). -/
theorem encode_of_operation (h : operation e w = some i) (clean : unusedFieldSet w = false) : encode i = w := by
  obtain ⟨op, idx, bit, data, rfl⟩ := exists_requestOf clean
  rw [operation, opField_requestOf] at h
  split at h
  case h_15 => cases h
  case h_13 hop | h_14 hop =>
    obtain ⟨-, rfl⟩ := BitVec.toNat_eq_nat.mp hop
    cases e <;> cases h
    simp [unusedFieldSet] at clean
    simp [encode, bitOperand, clean]
  all_goals
    rename_i hop
    obtain ⟨-, rfl⟩ := BitVec.toNat_eq_nat.mp hop
    cases h
    simp [unusedFieldSet, -BitVec.extractLsb'_toNat] at clean
    simp [encode, idxOperand, bitOperand, byteOperand, halfOperand, append_low_byte, clean, -BitVec.extractLsb'_toNat]

/-- The operands that a word gives fit their fields (R76). -/
theorem wf_of_operation (h : operation e w = some i) : i.wf = true := by
  unfold operation at h
  split at h
  case h_13 | h_14 =>
    cases e <;> cases h
    exact fitsField_natCast_toNat _
  case h_15 => cases h
  all_goals
    cases h
    simp [Instr.wf, idxOperand, bitOperand, byteOperand, halfOperand, -BitVec.extractLsb'_toNat]

/-- A word that decodes is the word of a well-formed operation, the one it decodes to (R79). -/
theorem encode_of_decode (h : decode e w = .ok i) : encode i = w ∧ i.wf = true := by
  cases hop : operation e w with
  | none => simp [decode, hop] at h
  | some j =>
    rw [decode_of_operation hop] at h
    split at h
    case isTrue => cases h
    case isFalse clean =>
      cases h
      exact ⟨encode_of_operation hop (Bool.eq_false_iff.mpr clean), wf_of_operation hop⟩

/-- A fault found in the operation records the word of the request, as one found in the decoder does (R151). -/
theorem requestWord_of_operation (h : requestOperation e r = .ok i) : requestWord (.call i) = requestWord r := by
  cases r with
  | word w =>
    obtain ⟨spelled, wf⟩ := encode_of_decode h
    simp only [requestWord, wf, spelled, if_true]
  | call j =>
    cases h
    rfl

/-- Without the extension the word of an extension operation has a reserved OP (R74). -/
theorem operation_encode_absent (ext : i.needsFlagExt = true) : operation false (encode i) = none := by
  cases i
  case clearFlag | getFlag => simp [operation, encode]
  all_goals cases ext

/-- Without the extension an extension operation is no operation (R74). -/
theorem callFault_of_absent (ext : i.needsFlagExt = true) : callFault false i = some .illegalOp := by
  cases i
  case clearFlag | getFlag => rfl
  all_goals cases ext

/-- The fault table gives the word of an operation the fault it gives the operation (R151, R153). -/
theorem wordFault_encode (wf : i.wf = true) : wordFault e (encode i) = callFault e i := by
  by_cases ext : i.needsFlagExt = true → e = true
  · exact wordFault_of_decode_ok (decode_encode wf ext)
  · obtain ⟨needs, absent⟩ := Classical.not_imp.mp ext
    rw [Bool.not_eq_true] at absent
    subst absent
    rw [wordFault_of_reserved (operation_encode_absent needs), callFault_of_absent needs]

/-- The word that a request would record is one that the fault table gives the same fault as the request. -/
theorem wordFault_of_requestWord (h : requestWord r = some w) : wordFault e w = requestFault e r := by
  cases r with
  | word w' =>
    cases h
    rfl
  | call i =>
    rw [requestWord] at h
    split at h
    case isTrue wf =>
      cases h
      exact wordFault_encode wf
    case isFalse => cases h

end RecordedWord

section FirstFault
variable {s t : State} {r : Request} {rest : List Offer} {i : Instr} {c : FaultCode}

/-- The state `t` answers the request `r`: `r` is taken from the port, which leaves `rest`; a fault of the table is
recorded, with the request's word, and is the response; without one the response is `done` or data (R151 to R153). -/
structure Answers (s : State) (r : Request) (rest : List Offer) (t : State) : Prop where
  queue : t.queue = rest
  flagExt : t.flagExt = s.flagExt
  faults : ∀ c, requestFault s.flagExt r = some c →
    t.response = some (.fault c) ∧ t.fault = some ⟨c, requestWord r⟩
  completes : requestFault s.flagExt r = none →
    t.fault = none ∧ (t.response = some .done ∨ ∃ v, t.response = some (.data v))

/-- An operation that left no fault recorded has answered `done` or data. -/
theorem Effect.done_or_data (h : Effect i s t) (ht : t.fault = none) :
    t.response = some .done ∨ ∃ v, t.response = some (.data v) := by
  cases h with
  | fault c => cases ht
  | read v => exact .inr ⟨v, rfl⟩
  | slot | pair | sp | pc => exact .inl rfl

/-- A fault state that records the code and the word of the request answers it. -/
theorem answers_faultState {k : Request} (hc : requestFault s.flagExt r = some c) (hk : requestWord k = requestWord r) :
    Answers s r rest (faultState c k { s with queue := rest }) where
  queue := rfl
  flagExt := rfl
  faults c' hc' := by
    cases hc.symm.trans hc'
    exact ⟨rfl, by rw [faultState_fault, hk]⟩
  completes hn := by cases hc.symm.trans hn

/-- What an operation leaves of a fault-free block answers a request that is that operation. -/
theorem exec_answers (hf : s.fault = none) (hr : requestOperation s.flagExt r = .ok i) :
    ∃ t, exec i { s with queue := rest } = .next t ∧ Answers s r rest t := by
  have table := requestFault_of_ok hr
  cases hc : callFault s.flagExt i with
  | some c =>
    exact ⟨_, exec_of_callFault hc, answers_faultState (table.trans hc) (requestWord_of_operation hr)⟩
  | none =>
    obtain ⟨t, ht, fault, -⟩ := exec_holdsLatest (s := { s with queue := rest }) hc
    have effect := effect_of_exec ht
    have clear := fault.trans hf
    refine ⟨t, ht, effect.queue_eq, effect.flagExt_eq, fun c hc' => ?_, fun _ => ⟨clear, effect.done_or_data clear⟩⟩
    cases hc'.symm.trans (table.trans hc)

/-- At a fault-free block one step answers the request at the head of the port: in the decoder, if it does not decode,
and otherwise in the operation (R78, R153). -/
theorem step_answers (hf : s.fault = none) (hq : s.queue = .single r :: rest) :
    ∃ t, step s = .next t ∧ Answers s r rest t := by
  cases hr : requestOperation s.flagExt r with
  | error c => exact ⟨_, step_bad hf hq hr, answers_faultState (requestFault_of_error hr) rfl⟩
  | ok i =>
    rw [step_run hf hq hr]
    exact exec_answers hf hr

/-- The answer to a request has the invariant: a recorded fault is the table's, and without one nothing is recorded and
the response is no fault. -/
theorem Answers.faultJustified (h : Answers s r rest t) : t.FaultJustified := by
  cases hc : requestFault s.flagExt r with
  | some c =>
    obtain ⟨response, fault⟩ := h.faults c hc
    constructor
    · intro f hf
      cases fault.symm.trans hf
      refine ⟨response, fun w hw => ?_⟩
      rw [h.flagExt, wordFault_of_requestWord hw, hc]
    · intro c' hc'
      cases response.symm.trans hc'
      exact ⟨_, fault, rfl⟩
  | none =>
    obtain ⟨fault, response⟩ := h.completes hc
    constructor
    · intro f hf
      cases fault.symm.trans hf
    · intro c' hc'
      rcases response with done | ⟨v, data⟩
      · cases done.symm.trans hc'
      · cases data.symm.trans hc'

/-- A step that changes the state has answered a request. -/
theorem answers_of_step (h : step s = .next t) (hne : t ≠ s) : ∃ r rest, Answers s r rest t := by
  have effect := stepEffect_of_step h
  obtain ⟨r, rest, hq, -⟩ := effect.takes_one_request hne
  obtain ⟨t', ht', answers⟩ := step_answers effect.fault_eq_none hq
  cases h.symm.trans ht'
  exact ⟨r, rest, answers⟩

end FirstFault

/-- Settles O25: the step is `step_answers`, and the word that it records for a word request is that word. -/
theorem stepRaisesTheFirstFault : Obligations.StepRaisesTheFirstFault := by
  unfold Obligations.StepRaisesTheFirstFault
  intro s r rest hf hq
  obtain ⟨t, ht, answers⟩ := step_answers hf hq
  refine ⟨t, ht, answers.queue, answers.flagExt, fun c hc => ?_, answers.completes⟩
  obtain ⟨response, fault⟩ := answers.faults c hc
  exact ⟨response, _, fault, fun w hw => hw ▸ rfl⟩

/-- Settles O35: a step that changes the state has answered a request, and every answer has the invariant. -/
theorem stepKeepsFaultJustified : Obligations.StepKeepsFaultJustified := by
  unfold Obligations.StepKeepsFaultJustified
  intro s t hs h
  by_cases idle : t = s
  · exact idle ▸ hs
  · obtain ⟨r, rest, answers⟩ := answers_of_step h idle
    exact answers.faultJustified

/-- Settles O26: a run stops where its first step stops, and the step of a faulted block is `step_faulted`. -/
theorem faultedBlockTakesNoStep : Obligations.FaultedBlockTakesNoStep := by
  unfold Obligations.FaultedBlockTakesNoStep
  intro s r n hf
  exact core_run_fault (step_faulted hf)

end Sys2Proof.Machine
end

section
/-! Proofs: the family 'other'. The encoding both ways (R73, R78, R79); the request that a step performs (R59, R78); and
what every operation that keeps the contract answers, with the claims about F, repetition and completion read off it. -/

namespace Sys2Proof.Machine

/-- A word decodes to an extension operation only on a block with the extension (R74). -/
theorem flagExt_of_decode {e : Bool} {w : Word} {i : Instr} (h : decode e w = .ok i) (ext : i.needsFlagExt = true) :
    e = true := by
  obtain ⟨rfl, -⟩ := encode_of_decode h
  cases e with
  | true => rfl
  | false => simp [decode, operation_encode_absent ext] at h

/-- Settles O28: the OP of the word selects the operation, each field reads as its operand, and no unused field is
set. -/
theorem decodeOfEncodeIsTheOperation : Obligations.DecodeOfEncodeIsTheOperation :=
  fun _ _ => decode_encode

/-- Settles O29: a word with no unused field set is assembled from its own fields, and without the extension no word of
an extension operation decodes. -/
theorem encodeOfDecodeIsTheWord : Obligations.EncodeOfDecodeIsTheWord := by
  unfold Obligations.EncodeOfDecodeIsTheWord
  intro e w i h
  obtain ⟨spelled, wf⟩ := encode_of_decode h
  exact ⟨spelled, wf, flagExt_of_decode h⟩

/-- Settles O32: the operation of a word request is what the decoder gives, and of a call the call's own. -/
theorem stepRunsTheDecodedOperation : Obligations.StepRunsTheDecodedOperation := by
  unfold Obligations.StepRunsTheDecodedOperation
  exact fun s rest hf => ⟨fun w i hq hw => step_run hf hq hw, fun w c hq hw => step_bad hf hq hw,
    fun i hq => step_run hf hq rfl⟩

section Completion
variable {s t : State} {i : Instr}

/-- The answer of every operation that keeps the contract (R100 to R103, R121 to R126, R140 to R143, R175). -/
inductive Completes (s : State) : Instr → State → Prop where
  | readRegister (q : Slot) : Completes s (.readRegister (slotIndex q)) (respond (.data (zext16 (readSlot s q))) s)
  | writeRegister (q : Slot) (v : Int) :
      Completes s (.writeRegister (slotIndex q) v) (respond .done (writeSlot s q (byteOf v)))
  | readPair (p : Pair) : Completes s (.readPair (pairStart p)) (respond (.data (readPair s p)) s)
  | writePair (p : Pair) (v : Int) :
      Completes s (.writePair (pairStart p) v) (respond .done (writePair s p (halfOf v)))
  | readFlags : Completes s .readFlags (respond (.data (zext16 (readSlot s .F))) s)
  | writeFlags (v : Int) : Completes s (.writeFlags v) (respond .done (writeSlot s .F (byteOf v)))
  | setFlag (f : FlagBit) :
      Completes s (.setFlag (flagPosition f)) (respond .done (writeSlot s .F (setFlagIn (readSlot s .F) f)))
  | resetFlag : Completes s .resetFlag (respond .done (writeSlot s .F 0x00#8))
  | readSp : Completes s .readSp (respond (.data s.sp) s)
  | writeSp (v : Int) : Completes s (.writeSp v) (respond .done (writeSp s (halfOf v)))
  | readPc : Completes s .readPc (respond (.data s.pc) s)
  | writePc (v : Int) : Completes s (.writePc v) (respond .done (writePc s (halfOf v)))
  | clearFlag (f : FlagBit) (he : s.flagExt = true) :
      Completes s (.clearFlag (flagPosition f)) (respond .done (writeSlot s .F (clearFlagIn (readSlot s .F) f)))
  | getFlag (f : FlagBit) (he : s.flagExt = true) :
      Completes s (.getFlag (flagPosition f)) (respond (.data (zext16 (flagValue (readSlot s .F) f))) s)

/-- `Completes` is what the model's `exec` answers. -/
theorem Completes.exec_eq (h : Completes s i t) : exec i s = .next t := by
  cases h with
  | readRegister q => exact exec_readRegister s q
  | writeRegister q v => exact exec_writeRegister s q v
  | readPair p => exact exec_readPair s p
  | writePair p v => exact exec_writePair s p v
  | setFlag f => exact exec_setFlag s f
  | clearFlag f he => exact exec_clearFlag s f he
  | getFlag f he => exact exec_getFlag s f he
  | readFlags | writeFlags | resetFlag | readSp | writeSp | readPc | writePc => rfl

/-- Every operation that keeps the contract has such an answer. -/
theorem exists_completes (hc : callFault s.flagExt i = none) : ∃ t, Completes s i t := by
  cases i
  case readRegister k =>
    obtain ⟨q, rfl⟩ := slot_of_contract hc
    exact ⟨_, .readRegister q⟩
  case writeRegister k v =>
    obtain ⟨q, rfl⟩ := slot_of_contract (e := s.flagExt) hc
    exact ⟨_, .writeRegister q v⟩
  case readPair p =>
    obtain ⟨pair, rfl⟩ := pair_of_contract hc
    exact ⟨_, .readPair pair⟩
  case writePair p v =>
    obtain ⟨pair, rfl⟩ := pair_of_contract (e := s.flagExt) hc
    exact ⟨_, .writePair pair v⟩
  case setFlag b =>
    obtain ⟨f, rfl⟩ := flag_of_contract hc
    exact ⟨_, .setFlag f⟩
  case clearFlag b =>
    obtain ⟨he, f, rfl⟩ := extension_of_contract hc
    exact ⟨_, .clearFlag f he⟩
  case getFlag b =>
    obtain ⟨he, f, rfl⟩ := extension_of_contract (b := b) hc
    exact ⟨_, .getFlag f he⟩
  case readFlags => exact ⟨_, .readFlags⟩
  case writeFlags v => exact ⟨_, .writeFlags v⟩
  case resetFlag => exact ⟨_, .resetFlag⟩
  case readSp => exact ⟨_, .readSp⟩
  case writeSp v => exact ⟨_, .writeSp v⟩
  case readPc => exact ⟨_, .readPc⟩
  case writePc v => exact ⟨_, .writePc v⟩

/-- An operation that leaves no recorded fault has completed. -/
theorem completes_of_exec (h : exec i s = .next t) (ht : t.fault = none) : Completes s i t := by
  obtain ⟨u, hu⟩ := exists_completes (callFault_eq_none_of_exec h ht)
  cases hu.exec_eq.symm.trans h
  exact hu

/-- A completed operation touches only the registers and the response, which is `done` or data (R77). -/
theorem Completes.kept_and_answered (h : Completes s i t) :
    BookkeepingKept s t ∧ (t.response = some .done ∨ ∃ v, t.response = some (.data v)) := by
  cases h with
  | readRegister | readPair | readFlags | readSp | readPc | getFlag => exact ⟨⟨rfl, rfl, rfl, rfl⟩, .inr ⟨_, rfl⟩⟩
  | writeRegister | writePair | writeFlags | setFlag | resetFlag | writeSp | writePc | clearFlag =>
    exact ⟨⟨rfl, rfl, rfl, rfl⟩, .inl rfl⟩

/-- Of the completed operations only six write F. -/
theorem Completes.writes_F (h : Completes s i t) (changed : readSlot t .F ≠ readSlot s .F) :
    (∃ v, i = .writeRegister 1 v) ∨ (∃ v, i = .writePair 0 v) ∨ (∃ v, i = .writeFlags v) ∨ (∃ b, i = .setFlag b) ∨
      i = .resetFlag ∨ ((∃ b, i = .clearFlag b) ∧ s.flagExt = true) := by
  cases h with
  | readRegister | readPair | readFlags | readSp | readPc | getFlag => exact absurd (readSlot_respond ..) changed
  | writeSp v => exact absurd (readSlot_writeSp s .F (halfOf v)) changed
  | writePc v => exact absurd (readSlot_writePc s .F (halfOf v)) changed
  | writeRegister q v =>
    by_cases hq : q = .F
    · exact .inl ⟨v, by rw [hq]; rfl⟩
    · exact absurd (readSlot_respond_writeSlot_of_ne _ (Ne.symm hq)) changed
  | writePair p v =>
    by_cases hp : p = .AF
    · exact .inr (.inl ⟨v, by rw [hp]; rfl⟩)
    · exact absurd (readSlot_writePair_of_ne (q := .F) (halfOf v) (Ne.symm hp)) (by simpa using changed)
  | writeFlags v => exact .inr (.inr (.inl ⟨v, rfl⟩))
  | setFlag f => exact .inr (.inr (.inr (.inl ⟨_, rfl⟩)))
  | resetFlag => exact .inr (.inr (.inr (.inr (.inl rfl))))
  | clearFlag f he => exact .inr (.inr (.inr (.inr (.inr ⟨⟨_, rfl⟩, he⟩))))

/-- Another byte in F changes the response of no completed operation but the four that read F. -/
theorem Completes.blind_to_F (h : Completes s i t) (f : Byte) (notF : i ≠ .readRegister 1) (notAF : i ≠ .readPair 0)
    (notFlags : i ≠ .readFlags) (notFlag : ∀ b, i ≠ .getFlag b) :
    ∃ t', Completes (writeSlot s .F f) i t' ∧ t'.response = t.response := by
  cases h with
  | readFlags => exact absurd rfl notFlags
  | getFlag => exact absurd rfl (notFlag _)
  | readRegister q =>
    have hq : q ≠ .F := by rintro rfl; exact notF rfl
    exact ⟨_, .readRegister q, by simp [readSlot_writeSlot, hq]⟩
  | readPair p =>
    have high : .F ≠ pairHigh p := by cases p <;> decide
    have low : .F ≠ pairLow p := by cases p with
      | AF => exact absurd rfl notAF
      | BC | DE | HL => decide
    exact ⟨_, .readPair p, by simp [readPair_writeSlot_of_ne f high low]⟩
  | readSp => exact ⟨_, .readSp, rfl⟩
  | readPc => exact ⟨_, .readPc, rfl⟩
  | writeRegister q v => exact ⟨_, .writeRegister q v, rfl⟩
  | writePair p v => exact ⟨_, .writePair p v, rfl⟩
  | writeFlags v => exact ⟨_, .writeFlags v, rfl⟩
  | setFlag g => exact ⟨_, .setFlag g, rfl⟩
  | resetFlag => exact ⟨_, .resetFlag, rfl⟩
  | writeSp v => exact ⟨_, .writeSp v, rfl⟩
  | writePc v => exact ⟨_, .writePc v, rfl⟩
  | clearFlag g he => exact ⟨_, .clearFlag g he, rfl⟩

/-- A second answer replaces the first. -/
@[simp] theorem respond_respond (a a' : Response) : respond a' (respond a s) = respond a' s := rfl

/-- A second write of a pair, with its answer, leaves nothing of the first. -/
@[simp] theorem respond_writePair_respond_writePair (a a' : Response) (p : Pair) (v v' : Half) :
    respond a' (writePair (respond a (writePair s p v)) p v') = respond a' (writePair s p v') := by
  cases p <;> rfl

/-- A completed operation performed again answers the state it is in. -/
theorem Completes.again (h : Completes s i t) : Completes t i t := by
  cases h with
  | readRegister q => simpa using Completes.readRegister (s := respond (.data (zext16 (readSlot s q))) s) q
  | readPair p => simpa using Completes.readPair (s := respond (.data (Machine.readPair s p)) s) p
  | readFlags => simpa using Completes.readFlags (s := respond (.data (zext16 (readSlot s .F))) s)
  | getFlag f he => simpa using Completes.getFlag (s := respond (.data (zext16 (flagValue (readSlot s .F) f))) s) f he
  | writeRegister q v => simpa using Completes.writeRegister (s := respond .done (writeSlot s q (byteOf v))) q v
  | writePair p v => simpa using Completes.writePair (s := respond .done (Machine.writePair s p (halfOf v))) p v
  | writeFlags v => simpa using Completes.writeFlags (s := respond .done (writeSlot s .F (byteOf v))) v
  | setFlag f => simpa using Completes.setFlag (s := respond .done (writeSlot s .F (setFlagIn (readSlot s .F) f))) f
  | resetFlag => simpa using Completes.resetFlag (s := respond .done (writeSlot s .F 0x00#8))
  | clearFlag f he =>
    simpa using Completes.clearFlag (s := respond .done (writeSlot s .F (clearFlagIn (readSlot s .F) f))) f he
  | readSp => exact .readSp
  | readPc => exact .readPc
  | writeSp v => exact .writeSp v
  | writePc v => exact .writePc v

end Completion

/-- Settles O19: an operation that records no fault has completed, and `Completes.writes_F` goes through the answers. -/
theorem onlyTheseOperationsWriteF : Obligations.OnlyTheseOperationsWriteF :=
  fun _ _ _ h ht => (completes_of_exec h ht).writes_F

/-- Settles O20: F is no part of the contract, so an operation that breaks it raises the same fault for every byte in F,
and one that keeps it is `Completes.blind_to_F`. -/
theorem otherOperationsAreBlindToF : Obligations.OtherOperationsAreBlindToF := by
  unfold Obligations.OtherOperationsAreBlindToF
  intro i s f notF notAF notFlags notFlag
  cases hc : callFault s.flagExt i with
  | some c => exact ⟨_, _, exec_of_callFault hc, exec_of_callFault (s := writeSlot s .F f) hc, rfl⟩
  | none =>
    obtain ⟨t, ht⟩ := exists_completes hc
    obtain ⟨t', ht', same⟩ := ht.blind_to_F f notF notAF notFlags notFlag
    exact ⟨t, t', ht.exec_eq, ht'.exec_eq, same⟩

/-- Settles O23: each operation finds its own write, or the value it read, in the state it answered. -/
theorem requestsAreIdempotent : Obligations.RequestsAreIdempotent :=
  fun _ _ _ h ht => (completes_of_exec h ht).again.exec_eq

/-- Settles O24: an operation that keeps the contract completes. -/
theorem contractKeepingOperationsComplete : Obligations.ContractKeepingOperationsComplete := by
  unfold Obligations.ContractKeepingOperationsComplete
  intro i s hc
  obtain ⟨t, ht⟩ := exists_completes hc
  exact ⟨t, ht.exec_eq, ht.kept_and_answered⟩

end Sys2Proof.Machine
end
